-- ==== Sys2Proof/Word.lean ====
section
/-! DEFINITION. The words of ALI-CORE: bytes (XLEN = 8), immediates and port values (16 bits), instruction words
(ILEN = 32). Rules R7, R8. -/

namespace Sys2Proof

/-- A register's or a memory cell's value, 8 bits read as unsigned (R24, R40). -/
abbrev Byte := BitVec 8

/-- A 16-bit value: the immediate (IMMW), `PC` (PCW), `in_data` (INW), `out_data` (OUTW) (R8). -/
abbrev Half := BitVec 16

/-- An instruction word, 32 bits (ILEN, R62). -/
abbrev Word := BitVec 32

end Sys2Proof
end

