-- ==== Sys2Proof/Config.lean ====
section
/-! DEFINITION. What is fixed for this hardware (R7, R8). The spec leaves no value free, so no constant here is
opaque. -/

namespace Sys2Proof.Config

/-- NREG: the number of registers (R7). -/
abbrev nReg : Nat := 7

/-- MEMSIZE: the number of memory cells (R7). -/
abbrev memSize : Nat := 64

/-- What a memory cell reads as when nothing has been stored to it since reset (R41, decision D15). -/
def memReset : Byte := 0

end Sys2Proof.Config
end

