-- ==== Sys2Proof/Syntax.lean ====
section
/-! DEFINITION. The fifteen instructions and their operands as the instruction word holds them (R62 to R66). A word
whose register field is 7, or whose S mode is 11, is an instruction too: it raises its error when that operand is
checked (R63, R65, R69), so the syntax has those operand forms. -/

namespace Sys2Proof

/-- A register R0 to R6 (R24). -/
abbrev Reg := Fin Config.nReg

/-- A 3-bit register field: a register, or the value 7, which names none (R63). -/
inductive RegField where
  | reg (n : Reg)
  | invalid
deriving DecidableEq, Repr

/-- The S operand, by `smode` (R65). In mode 11 `sreg` and `imm` are ignored by the machine (R67); they are kept so
that no bit of the word is lost. -/
inductive Source where
  | reg (r : RegField)
  | ind (r : RegField)
  | imm (v : Half)
  | bad (sreg : BitVec 3) (imm : Half)
deriving DecidableEq, Repr

/-- ALI-15 (R66), one constructor for each row of spec/opcode_table.json; operands in text order. -/
inductive Instr where
  | mov (src : Source) (dst : RegField)
  | add (src : Source) (dst : RegField)
  | sub (src : Source) (dst : RegField)
  | mul (src : Source) (dst : RegField)
  | div (src : Source) (dst : RegField)
  | inc (dst : RegField)
  | dec (dst : RegField)
  | rol (dst : RegField) (amount : Source)
  | ror (dst : RegField) (amount : Source)
  | shl (dst : RegField) (amount : Source)
  | shr (dst : RegField) (amount : Source)
  | inp (dst : RegField)
  | out (src : Source)
  | store (src : RegField) (addr : Source)
  | load (dst : RegField) (addr : Source)
deriving DecidableEq, Repr

end Sys2Proof
end

