-- ==== Sys2Proof/WellFormed.lean ====
section
/-! DEFINITION. The well-formed instructions: those whose operands are all of a form the text syntax gives them, that
is, the legal instructions that R69's table of operand errors does not name. The encoding holds the ill-formed ones
too (R70): the machine abandons them with the operand's error. -/

namespace Sys2Proof

/-- The field names a register (R63). -/
def RegField.wf : RegField → Bool
  | .reg _ => true
  | .invalid => false

/-- The operand is a data operand form: `Rn`, `[Rn]` or a literal (R65). -/
def Source.wfData : Source → Bool
  | .reg r => r.wf
  | .ind r => r.wf
  | .imm _ => true
  | .bad _ _ => false

/-- The operand is an address form: `[Rn]` or a bare decimal address (R65, R118). -/
def Source.wfAddress : Source → Bool
  | .reg _ => false
  | .ind r => r.wf
  | .imm _ => true
  | .bad _ _ => false

/-- Every operand of the instruction is of a form its text syntax gives (R66, R69). -/
def Instr.wf : Instr → Bool
  | .mov src dst => src.wfData && dst.wf
  | .add src dst => src.wfData && dst.wf
  | .sub src dst => src.wfData && dst.wf
  | .mul src dst => src.wfData && dst.wf
  | .div src dst => src.wfData && dst.wf
  | .inc dst => dst.wf
  | .dec dst => dst.wf
  | .rol dst amount => dst.wf && amount.wfData
  | .ror dst amount => dst.wf && amount.wfData
  | .shl dst amount => dst.wf && amount.wfData
  | .shr dst amount => dst.wf && amount.wfData
  | .inp dst => dst.wf
  | .out src => src.wfData
  | .store src addr => src.wf && addr.wfAddress
  | .load dst addr => dst.wf && addr.wfAddress

end Sys2Proof
end

