-- ==== Sys2Proof/Decode.lean ====
section
/-! DEFINITION. Decoding an instruction word (R62 to R70) and encoding an instruction, each written from the spec's
field table. Decoding is total: a word is an instruction or is rejected by name, and every rejection is the
machine's `InvalidInstruction` (R69). -/

namespace Sys2Proof

/-- Why the bits are no instruction (R70 steps 1 and 2). `truncated` is about byte lists only: fewer bytes than a
word has. -/
inductive DecodeReject where
  | reservedOpcode
  | reservedBitsSet
  | unusedFieldSet
  | truncated
deriving DecidableEq, Repr

/-! ### Fields of the word (R62) -/

/-- `op`, bits 31:28. -/
def opOf (w : Word) : BitVec 4 := w.extractLsb' 28 4
/-- `smode`, bits 27:26. -/
def smodeOf (w : Word) : BitVec 2 := w.extractLsb' 26 2
/-- `sreg`, bits 25:23. -/
def sregOf (w : Word) : BitVec 3 := w.extractLsb' 23 3
/-- `r`, bits 22:20. -/
def rOf (w : Word) : BitVec 3 := w.extractLsb' 20 3
/-- `sbz`, bits 19:16. -/
def sbzOf (w : Word) : BitVec 4 := w.extractLsb' 16 4
/-- `imm`, bits 15:0. -/
def immOf (w : Word) : Half := w.extractLsb' 0 16

/-- The word with the given fields (R62). -/
def packFields (op : BitVec 4) (smode : BitVec 2) (sreg r : BitVec 3) (sbz : BitVec 4) (imm : Half) : Word :=
  op ++ smode ++ sreg ++ r ++ sbz ++ imm

/-! ### Decoding -/

/-- A register field: n in 0..6 names Rn, 7 names none (R63). -/
def decodeReg (f : BitVec 3) : RegField :=
  if h : f.toNat < Config.nReg then .reg ⟨f.toNat, h⟩ else .invalid

/-- The S operand, its unused fields checked (R65, R67). -/
def decodeSource (smode : BitVec 2) (sreg : BitVec 3) (imm : Half) : Except DecodeReject Source :=
  if smode = 0 then
    if imm = 0 then .ok (.reg (decodeReg sreg)) else .error .unusedFieldSet
  else if smode = 1 then
    if imm = 0 then .ok (.ind (decodeReg sreg)) else .error .unusedFieldSet
  else if smode = 2 then
    if sreg = 0 then .ok (.imm imm) else .error .unusedFieldSet
  else .ok (.bad sreg imm)

/-- The form with an S operand and a register operand. -/
def formSourceReg (w : Word) (mk : Source → RegField → Instr) : Except DecodeReject Instr :=
  match decodeSource (smodeOf w) (sregOf w) (immOf w) with
  | .ok src => .ok (mk src (decodeReg (rOf w)))
  | .error e => .error e

/-- The form with a register operand only: INC, DEC, IN (R67). -/
def formReg (w : Word) (mk : RegField → Instr) : Except DecodeReject Instr :=
  if smodeOf w = 0 ∧ sregOf w = 0 ∧ immOf w = 0 then .ok (mk (decodeReg (rOf w))) else .error .unusedFieldSet

/-- The form with an S operand only: OUT (R67). -/
def formSource (w : Word) (mk : Source → Instr) : Except DecodeReject Instr :=
  if rOf w = 0 then
    match decodeSource (smodeOf w) (sregOf w) (immOf w) with
    | .ok src => .ok (mk src)
    | .error e => .error e
  else .error .unusedFieldSet

/-- `Decode(w)` (R70): opcode 0, then the reserved bits, then the unused fields of the opcode's form (R66, R67). -/
def decodeWord (w : Word) : Except DecodeReject Instr :=
  if opOf w = 0 then .error .reservedOpcode
  else if sbzOf w ≠ 0 then .error .reservedBitsSet
  else match (opOf w).toNat with
    | 1 => formSourceReg w .mov
    | 2 => formSourceReg w .add
    | 3 => formSourceReg w .sub
    | 4 => formSourceReg w .mul
    | 5 => formSourceReg w .div
    | 6 => formReg w .inc
    | 7 => formReg w .dec
    | 8 => formSourceReg w fun s r => .rol r s
    | 9 => formSourceReg w fun s r => .ror r s
    | 10 => formSourceReg w fun s r => .shl r s
    | 11 => formSourceReg w fun s r => .shr r s
    | 12 => formReg w .inp
    | 13 => formSource w .out
    | 14 => formSourceReg w fun s r => .store r s
    | 15 => formSourceReg w fun s r => .load r s
    | _ => .error .reservedOpcode

/-- An instruction word in a host's file of bytes: little-endian, bits 7:0 at the lowest address (R52). -/
def wordOfBytes (b0 b1 b2 b3 : Byte) : Word := b3 ++ b2 ++ b1 ++ b0

/-- The first instruction of a list of bytes and the bytes after it (R52, R71). -/
def decodeBytes : List Byte → Except DecodeReject (Instr × List Byte)
  | b0 :: b1 :: b2 :: b3 :: rest =>
    match decodeWord (wordOfBytes b0 b1 b2 b3) with
    | .ok i => .ok (i, rest)
    | .error e => .error e
  | _ => .error .truncated

/-! ### Encoding -/

/-- The register field of a register operand (R63). -/
def encodeReg : RegField → BitVec 3
  | .reg n => BitVec.ofNat 3 n.val
  | .invalid => 7

/-- `smode` of an S operand (R65). -/
def Source.smodeBits : Source → BitVec 2
  | .reg _ => 0
  | .ind _ => 1
  | .imm _ => 2
  | .bad _ _ => 3

/-- `sreg` of an S operand (R65, R67). -/
def Source.sregBits : Source → BitVec 3
  | .reg r => encodeReg r
  | .ind r => encodeReg r
  | .imm _ => 0
  | .bad sreg _ => sreg

/-- `imm` of an S operand (R64, R67). -/
def Source.immBits : Source → Half
  | .reg _ => 0
  | .ind _ => 0
  | .imm v => v
  | .bad _ low => low

/-- `op` of an instruction (R66). -/
def Instr.opBits : Instr → BitVec 4
  | .mov _ _ => 1
  | .add _ _ => 2
  | .sub _ _ => 3
  | .mul _ _ => 4
  | .div _ _ => 5
  | .inc _ => 6
  | .dec _ => 7
  | .rol _ _ => 8
  | .ror _ _ => 9
  | .shl _ _ => 10
  | .shr _ _ => 11
  | .inp _ => 12
  | .out _ => 13
  | .store _ _ => 14
  | .load _ _ => 15

/-- A word with an S operand and a register operand. -/
def packSourceReg (op : BitVec 4) (src : Source) (r : RegField) : Word :=
  packFields op src.smodeBits src.sregBits (encodeReg r) 0 src.immBits

/-- A word with a register operand only. -/
def packReg (op : BitVec 4) (r : RegField) : Word := packFields op 0 0 (encodeReg r) 0 0

/-- A word with an S operand only. -/
def packSource (op : BitVec 4) (src : Source) : Word :=
  packFields op src.smodeBits src.sregBits 0 0 src.immBits

/-- The word of an instruction (R62 to R67). -/
def encode : Instr → Word
  | .mov src dst => packSourceReg 1 src dst
  | .add src dst => packSourceReg 2 src dst
  | .sub src dst => packSourceReg 3 src dst
  | .mul src dst => packSourceReg 4 src dst
  | .div src dst => packSourceReg 5 src dst
  | .inc dst => packReg 6 dst
  | .dec dst => packReg 7 dst
  | .rol dst amount => packSourceReg 8 amount dst
  | .ror dst amount => packSourceReg 9 amount dst
  | .shl dst amount => packSourceReg 10 amount dst
  | .shr dst amount => packSourceReg 11 amount dst
  | .inp dst => packReg 12 dst
  | .out src => packSource 13 src
  | .store src addr => packSourceReg 14 addr src
  | .load dst addr => packSourceReg 15 addr dst

/-- The bytes of a word in a host's file, lowest address first (R52). -/
def bytesOfWord (w : Word) : List Byte :=
  [w.extractLsb' 0 8, w.extractLsb' 8 8, w.extractLsb' 16 8, w.extractLsb' 24 8]

/-- The bytes of an instruction in a host's file (R52). -/
def encodeBytes (i : Instr) : List Byte := bytesOfWord (encode i)

/-! ### The opcode table's words -/

/-- The word whose low `nbits` bits are those of `w` and whose other bits are 0. -/
def tableWord (nbits w : Nat) : Word := BitVec.ofNat 32 (w % 2 ^ nbits)

/-- The instruction the decoder reads from a word of spec/opcode_table.json, laid out as bytes as R52 says. No
instruction is longer than 32 bits (R71). -/
def decodeTableWord (nbits w : Nat) : Option Instr :=
  if nbits ≤ 32 then
    match decodeBytes (bytesOfWord (tableWord nbits w)) with
    | .ok (i, _) => some i
    | .error _ => none
  else none

end Sys2Proof
end

