-- ==== Sys2Proof/Machine/State.lean ====
section
/-! DEFINITION. The state of ALI-CORE as plain data (R22), the boundary of the block (R9 to R13), the causes of the
per-instruction errors (R122), and the state after reset (R137). -/

namespace Sys2Proof.Machine

/-- The four condition flags (R31). -/
structure Flags where
  cf : Bool
  of : Bool
  uf : Bool
  zf : Bool
deriving DecidableEq, Repr

/-- All four flags false (R34, R36). -/
def Flags.clear : Flags := ⟨false, false, false, false⟩

/-- The causes of a per-instruction error (R122). None of them stops the machine (R128). -/
inductive ErrorCause where
  /-- opcode 0, or a reserved or unused field that is not zero -/
  | invalidInstruction
  /-- a register field 7 in a position that is not a destination -/
  | invalidRegister
  /-- a register field 7 as a destination -/
  | invalidDestination
  /-- a memory address outside [0,63] -/
  | outOfBounds
  /-- an operand form the instruction does not take, or a negative rotate/shift amount -/
  | invalidOperand
  /-- DIV by a source that resolves to 0 -/
  | divisionByZero
deriving DecidableEq, Repr

/-- The phase of the instruction cycle (R43, R79), with the data that exists only in that phase (log 3). -/
inductive Phase where
  /-- waiting for an instruction word; with `resetCycle`, in the first cycle after a reset, in which the core drives
  nothing yet (R138) -/
  | idle (resetCycle : Bool)
  /-- the accepted word is about to be decoded and executed -/
  | execute (w : Word)
  /-- an `IN` into register `n` waits for the input port -/
  | waitIn (n : Reg)
  /-- an `OUT` holds `out_data` until the output port accepts it -/
  | waitOut (v : Half)
  /-- a report waits for the report port; `final` is `rep_final` -/
  | report (final : Bool)
  /-- the final report has been sent -/
  | ended
deriving DecidableEq, Repr

/-- One transfer on the instruction port (R10). With `progEnd` the word is ignored. -/
structure InstrTransfer where
  word : Word
  progEnd : Bool
deriving DecidableEq, Repr

/-- The report record (R13): register i at index i, cell a at index a. -/
structure Report where
  pc : Half
  regs : Vector Byte Config.nReg
  flags : BitVec 4
  err : BitVec 3
  mem : Vector Byte Config.memSize
  final : Bool
deriving DecidableEq, Repr

/-- The boundary of the block (R9 to R13), seen from the host's side (log 1). -/
structure Ports where
  /-- `rst`, as the host drives it (R9) -/
  rst : Bool
  /-- the transfers the host still offers on the instruction port, oldest first (R10) -/
  instr : List InstrTransfer
  /-- the values the host still offers on the input port, oldest first (R11) -/
  input : List Half
  /-- `out_ready`, as the host drives it (R12) -/
  outReady : Bool
  /-- the values the output port has sent since reset, oldest first (R12) -/
  output : List Half
  /-- `rep_ready`, as the host drives it (R13) -/
  repReady : Bool
  /-- the reports the host has accepted since reset, oldest first (R13) -/
  reports : List Report
deriving DecidableEq, Repr

/-- The machine (R22) and its ports. -/
structure State where
  /-- the register file x, R0 to R6 (R24) -/
  regs : Vector Byte Config.nReg
  /-- the data memory M (R40): cells in the form of `Memory.wf`; an unlisted cell holds `Config.memReset` -/
  mem : List Host.Cell
  /-- CF, OF, UF, ZF (R31) -/
  flags : Flags
  /-- PC (R29) -/
  pc : Half
  /-- ERR (R39) -/
  err : BitVec 3
  /-- the phase (R43) -/
  phase : Phase
  /-- the boundary (R9 to R13) -/
  ports : Ports
deriving DecidableEq, Repr

/-- The machine never stops with a fault: every error is a per-instruction error with a next state (R126, R128), so
this type has no constructor. -/
inductive Fault where
deriving DecidableEq, Repr

/-- Why the model has no meaning for an instruction. -/
inductive Refusal where
  /-- raised by an arm of `exec` whose instruction has no meaning yet, and by nothing else; safe. No arm raises it
  in this model. -/
  | notModelled (mnemonic : String)
deriving DecidableEq, Repr

/-- The ports right after reset with nothing offered (log 1): the host offers nothing and is ready to accept. -/
def Ports.quiet : Ports :=
  { rst := false, instr := [], input := [], outReady := true, output := [], repReady := true, reports := [] }

/-- The state after reset (R137, R28, R29, R36, R39, R41, R43): the first cycle after it is ahead (R138). -/
def State.reset : State :=
  { regs := Vector.replicate Config.nReg 0, mem := [], flags := Flags.clear, pc := 0, err := 0, phase := .idle true,
    ports := Ports.quiet }

end Sys2Proof.Machine
end

