-- ==== Sys2Proof/Machine/Flags.lean ====
section
/-! DEFINITION. The flag update logic: the saturation policy (R87) and the flags as the report port shows them
(R37). -/

namespace Sys2Proof.Machine

/-- The flags of an overflow: `CF`, `OF` and `ZF` (R87). -/
def Flags.overflow : Flags := { cf := true, of := true, uf := false, zf := true }
/-- The flags of an underflow: `UF` only (R87). -/
def Flags.underflow : Flags := { cf := false, of := false, uf := true, zf := false }
/-- The flags of a zero result: `ZF` only (R87). -/
def Flags.zero : Flags := { cf := false, of := false, uf := false, zf := true }

/-- `Policy(t)` (R87): what an exact result commits and the flags it sets. -/
def policy (t : Int) : Byte × Flags :=
  if t > 255 then (0, Flags.overflow)
  else if t < 0 then (255, Flags.underflow)
  else if t = 0 then (0, Flags.zero)
  else (BitVec.ofInt 8 t, Flags.clear)

/-- `rep_flags`: bit 0 CF, bit 1 OF, bit 2 UF, bit 3 ZF (R37). -/
def flagBits (f : Flags) : BitVec 4 :=
  BitVec.ofBool f.zf ++ BitVec.ofBool f.uf ++ BitVec.ofBool f.of ++ BitVec.ofBool f.cf

end Sys2Proof.Machine
end

