-- ==== Sys2Proof/Machine/Memory.lean ====
section
/-! DEFINITION. The data memory (R40, R45 to R55): reading and writing one cell of the canonical list, and that form.
Bounds are checked in Ops (R48, R49). -/

namespace Sys2Proof.Machine

/-- The byte in cell `a`: the listed one, or the reset contents (R40, R41, R57). -/
def Memory.read : List Host.Cell → Nat → Byte
  | [], _ => Config.memReset
  | (k, b) :: m, a => if k = a then b else Memory.read m a

/-- Put a cell in front, unless it holds what an unlisted cell reads as. -/
def Memory.consCell (a : Nat) (v : Byte) (m : List Host.Cell) : List Host.Cell :=
  if v = Config.memReset then m else (a, v) :: m

/-- `M[a] <- v` (R49), keeping addresses rising and listing no cell that holds the reset contents. -/
def Memory.write : List Host.Cell → Nat → Byte → List Host.Cell
  | [], a, v => Memory.consCell a v []
  | (k, b) :: m, a, v =>
    if a < k then Memory.consCell a v ((k, b) :: m)
    else if a = k then Memory.consCell a v m
    else (k, b) :: Memory.write m a v

/-- The cells rise strictly from `lo`, are inside the memory, and none holds the reset contents. -/
def Memory.wfFrom (lo : Nat) : List Host.Cell → Bool
  | [] => true
  | (k, b) :: m => decide (lo ≤ k) && decide (k < Config.memSize) && decide (b ≠ Config.memReset) &&
      Memory.wfFrom (k + 1) m

/-- The canonical form: equal memories are equal lists. -/
def Memory.wf (m : List Host.Cell) : Bool := Memory.wfFrom 0 m

/-- All 64 cells, cell a at index a (R13). -/
def Memory.cells (m : List Host.Cell) : Vector Byte Config.memSize := Vector.ofFn fun a => Memory.read m a.val

end Sys2Proof.Machine
end

