-- ==== Sys2Proof/Machine/Ops.lean ====
section
/-! DEFINITION. The named operations every instruction uses: registers (R17, R24), bounds-checked memory (R48, R49),
committing a result (R89), and the end of an instruction: completed, or abandoned with an error (R79, R126). -/

namespace Sys2Proof.Machine

/-! ### Registers -/

/-- `x[n]` (R17). -/
def readReg (s : State) (n : Reg) : Byte := s.regs[n.val]

/-- `x[n]` as the exact integer `zext_8(x[n])` in [0,255] (R16, R90). -/
def regValue (s : State) (n : Reg) : Int := (readReg s n).toNat

/-- `x[n] <- v` (R17). -/
def writeReg (n : Reg) (v : Byte) (s : State) : State := { s with regs := s.regs.set n.val v }

/-! ### Memory -/

/-- The address decoder's range check: the cell an address integer selects, if it is in [0,63] (R48, R50). -/
def cellOf (a : Int) : Except ErrorCause Nat :=
  if 0 ≤ a ∧ a < (Config.memSize : Int) then .ok a.toNat else .error .outOfBounds

/-- `MemRead(a, 1)` (R48). -/
def memRead (s : State) (a : Int) : Except ErrorCause Byte :=
  match cellOf a with
  | .ok c => .ok (Memory.read s.mem c)
  | .error e => .error e

/-- `MemWrite(a, 1, v)` (R49). -/
def memWrite (a : Int) (v : Byte) (s : State) : Except ErrorCause State :=
  match cellOf a with
  | .ok c => .ok { s with mem := Memory.write s.mem c v }
  | .error e => .error e

/-! ### Committing a result -/

/-- `WriteResult(n, t)`: the policy's value into register n and the policy's flags (R89). -/
def writeResult (n : Reg) (t : Int) (s : State) : State :=
  { writeReg n (policy t).1 s with flags := (policy t).2 }

/-! ### The end of an instruction -/

/-- The `ERR` code of a cause (R122). -/
def errorCode : ErrorCause → BitVec 3
  | .invalidInstruction => 1
  | .invalidRegister => 2
  | .invalidDestination => 3
  | .outOfBounds => 4
  | .invalidOperand => 5
  | .divisionByZero => 6

/-- What every instruction ends with: `ERR <- code`, `PC <- PC + 1` modulo 65536, and the report phase (R79, R30,
R39). -/
def endInstruction (code : BitVec 3) (s : State) : State :=
  { s with err := code, pc := s.pc + 1, phase := .report false }

/-- The instruction completed: `ERR` is `NONE` (R79). -/
def complete (s : State) : State := endInstruction 0 s

/-- The error response (R126): nothing of the instruction is written, and the machine goes on. It is given the state
before the instruction. There is no return from it (R129). -/
def takeError (e : ErrorCause) (s : State) : State := endInstruction (errorCode e) s

/-- An instruction that commits or raises: the committed state completed, or the error response on the state before
the instruction. -/
def settle (s : State) : Except ErrorCause State → Host.Outcome State Fault Refusal
  | .ok s' => .next (complete s')
  | .error e => .next (takeError e s)

end Sys2Proof.Machine
end

