-- ==== Sys2Proof/Machine/Cycle.lean ====
section
/-! DEFINITION. The parts of the instruction cycle around `Execute` (R79): accepting a word, abandoning a word that is
no instruction, sending a report and clearing the flags, reset, and the core's own port signals in each phase. -/

namespace Sys2Proof.Machine

/-- The first cycle after a reset: no transfer is made, and from then on the core accepts words (R138). -/
def endResetCycle (s : State) : State := { s with phase := .idle false }

/-- In `Idle`: accept the transfer the host offers, if it offers one (R10, R79). A word goes to `Execute`; `prog_end`
starts the final report (R143). -/
def acceptTransfer (s : State) : State :=
  match s.ports.instr with
  | [] => s
  | x :: rest =>
    { s with
      phase := if x.progEnd then .report true else .execute x.word
      ports := { s.ports with instr := rest } }

/-- A word that decodes to no instruction is abandoned with `InvalidInstruction` (R69, R79). -/
def abandonWord (s : State) : State := takeError .invalidInstruction s

/-- The report record (R13): per instruction as the state stands (R81), final with the flags and `ERR` as zero
(R143). -/
def reportOf (final : Bool) (s : State) : Report :=
  { pc := s.pc
    regs := s.regs
    flags := if final then 0 else flagBits s.flags
    err := if final then 0 else s.err
    mem := Memory.cells s.mem
    final := final }

/-- In `Report`: when the host accepts, the report is sent and the flags are cleared (R81, R82), and the machine is idle
again, or ended after the final report (R143). -/
def sendReport (final : Bool) (s : State) : State :=
  if s.ports.repReady then
    { s with
      flags := Flags.clear
      phase := if final then .ended else .idle false
      ports := { s.ports with reports := s.ports.reports ++ [reportOf final s] } }
  else s

/-- `rst = 1`: every piece of state to its reset value, an instruction in progress abandoned (R137), and the
quiet first cycle is ahead (R138). What the host drives and offers stays; the record of transfers starts again (log 5). -/
def applyReset (s : State) : State :=
  { State.reset with ports := { s.ports with output := [], reports := [] } }

/-! ### What the core drives on its ports (R10 to R13, R113, R116, R138) -/

/-- `instr_ready`: idle, and neither in reset nor in the first cycle after it (R10, R138). -/
def instrReady (s : State) : Bool := !s.ports.rst && decide (s.phase = .idle false)

/-- `in_req` and `in_ready`, driven together while an `IN` waits (R11, R113). -/
def inReady (s : State) : Bool :=
  !s.ports.rst && match s.phase with
    | .waitIn _ => true
    | _ => false

/-- `out_valid`, and `out_data` when it is 1 (R12, R116). -/
def outValid (s : State) : Option Half :=
  if s.ports.rst then none
  else match s.phase with
    | .waitOut v => some v
    | _ => none

/-- `rep_valid`, and the report record when it is 1 (R13). -/
def repValid (s : State) : Option Report :=
  if s.ports.rst then none
  else match s.phase with
    | .report final => some (reportOf final s)
    | _ => none

end Sys2Proof.Machine
end

