-- ==== Sys2Proof/Machine/Operands.lean ====
section
/-! DEFINITION. Operand resolution (R83 to R86), every operand form. -/

namespace Sys2Proof.Machine

/-- `sext_16(v)` (R16, R64). -/
def sext16 (v : Half) : Int := v.toInt

/-- `CheckReg(n, E)` (R83). -/
def checkReg : RegField → ErrorCause → Except ErrorCause Reg
  | .reg n, _ => .ok n
  | .invalid, e => .error e

/-- `ResolveValue(d)`: the S operand used as data (R84). -/
def resolveValue (s : State) : Source → Except ErrorCause Int
  | .reg r =>
    match checkReg r .invalidRegister with
    | .ok n => .ok (regValue s n)
    | .error e => .error e
  | .ind r =>
    match checkReg r .invalidRegister with
    | .ok n =>
      match memRead s (regValue s n) with
      | .ok b => .ok b.toNat
      | .error e => .error e
    | .error e => .error e
  | .imm v => .ok (sext16 v)
  | .bad _ _ => .error .invalidOperand

/-- `ResolveAddress(d)`: the S operand used as a memory address, its bounds not yet checked (R85). -/
def resolveAddress (s : State) : Source → Except ErrorCause Int
  | .reg _ => .error .invalidOperand
  | .ind r =>
    match checkReg r .invalidRegister with
    | .ok n => .ok (regValue s n)
    | .error e => .error e
  | .imm v => .ok (sext16 v)
  | .bad _ _ => .error .invalidOperand

end Sys2Proof.Machine
end

