-- ==== Sys2Proof/Machine/Mov.lean ====
section
/-! DEFINITION. The shape of the instructions `op S, Rd` (R97, R99) and MOV. -/

namespace Sys2Proof.Machine

/-- S is resolved, then Rd is checked, then the result is computed from Rd's old value and S's, then committed through
the policy (R97, R99). -/
def sourceToReg (f : Int → Int → Except ErrorCause Int) (src : Source) (dst : RegField) (s : State) :
    Except ErrorCause State :=
  match resolveValue s src with
  | .error e => .error e
  | .ok v =>
    match checkReg dst .invalidDestination with
    | .error e => .error e
    | .ok n =>
      match f (regValue s n) v with
      | .error e => .error e
      | .ok t => .ok (writeResult n t s)

/-- MOV S, Rd (R97). -/
def execMov (src : Source) (dst : RegField) (s : State) : Host.Outcome State Fault Refusal :=
  settle s (sourceToReg (fun _ v => .ok v) src dst s)

end Sys2Proof.Machine
end

