-- ==== Sys2Proof/Machine/Arithmetic.lean ====
section
/-! DEFINITION. ADD, SUB, MUL, DIV, INC, DEC (R99 to R106) on exact integers (R90, R91). -/

namespace Sys2Proof.Machine

/-- ADD S, Rd (R100). -/
def execAdd (src : Source) (dst : RegField) (s : State) : Host.Outcome State Fault Refusal :=
  settle s (sourceToReg (fun d v => .ok (d + v)) src dst s)

/-- SUB S, Rd: destination minus source (R101). -/
def execSub (src : Source) (dst : RegField) (s : State) : Host.Outcome State Fault Refusal :=
  settle s (sourceToReg (fun d v => .ok (d - v)) src dst s)

/-- MUL S, Rd (R102). -/
def execMul (src : Source) (dst : RegField) (s : State) : Host.Outcome State Fault Refusal :=
  settle s (sourceToReg (fun d v => .ok (d * v)) src dst s)

/-- The quotient truncated toward zero, or the error of a zero divisor (R92, R103). -/
def divide (d v : Int) : Except ErrorCause Int := if v = 0 then .error .divisionByZero else .ok (d.tdiv v)

/-- DIV S, Rd: destination divided by source (R103). -/
def execDiv (src : Source) (dst : RegField) (s : State) : Host.Outcome State Fault Refusal :=
  settle s (sourceToReg divide src dst s)

/-- The shape of INC and DEC: Rd is read before it is written, so field 7 is `InvalidRegister` (R104 to R106). -/
def updateReg (f : Int → Int) (dst : RegField) (s : State) : Except ErrorCause State :=
  match checkReg dst .invalidRegister with
  | .error e => .error e
  | .ok n => .ok (writeResult n (f (regValue s n)) s)

/-- INC Rd (R104). -/
def execInc (dst : RegField) (s : State) : Host.Outcome State Fault Refusal :=
  settle s (updateReg (fun d => d + 1) dst s)

/-- DEC Rd (R105). -/
def execDec (dst : RegField) (s : State) : Host.Outcome State Fault Refusal :=
  settle s (updateReg (fun d => d - 1) dst s)

end Sys2Proof.Machine
end

