-- ==== Sys2Proof/Machine/InputOutput.lean ====
section
/-! DEFINITION. IN and OUT and their ports (R113 to R117). Executing one enters its waiting phase, in which the core
drives the port; the transfer and the end of the instruction belong to that phase (R43, R79; log 2). -/

namespace Sys2Proof.Machine

/-- `PortIn()` for an `IN` into register n begins: the core enters `WaitIn` (R113). -/
def requestInput (n : Reg) (s : State) : State := { s with phase := .waitIn n }

/-- In `WaitIn`: with a value offered, the one transfer, and what `IN` does with the value (R113, R115); with none, the
wait goes on. -/
def awaitInput (n : Reg) (s : State) : State :=
  match s.ports.input with
  | [] => s
  | v :: rest => complete (writeResult n (sext16 v) { s with ports := { s.ports with input := rest } })

/-- `PortOut(v)` begins: the core enters `WaitOut`, which holds `out_data` (R116). -/
def presentOutput (v : Half) (s : State) : State := { s with phase := .waitOut v }

/-- In `WaitOut`: with the host ready, the one transfer, and the `OUT` is complete (R116, R117); else the wait goes
on. -/
def awaitOutput (v : Half) (s : State) : State :=
  if s.ports.outReady then complete { s with ports := { s.ports with output := s.ports.output ++ [v] } } else s

/-- IN Rd: the destination is checked before any input is requested (R115). -/
def execIn (dst : RegField) (s : State) : Host.Outcome State Fault Refusal :=
  match checkReg dst .invalidDestination with
  | .error e => .next (takeError e s)
  | .ok n => .next (requestInput n s)

/-- OUT S: the resolved value as 16-bit two's complement, without the policy (R116, R117). -/
def execOut (src : Source) (s : State) : Host.Outcome State Fault Refusal :=
  match resolveValue s src with
  | .error e => .next (takeError e s)
  | .ok v => .next (presentOutput (BitVec.ofInt 16 v) s)

end Sys2Proof.Machine
end

