-- ==== Sys2Proof/Machine/LoadStore.lean ====
section
/-! DEFINITION. STORE and LOAD (R118 to R121). Neither applies the flag policy. -/

namespace Sys2Proof.Machine

/-- What STORE commits, or the error it raises (R119). -/
def storeReg (src : RegField) (addr : Source) (s : State) : Except ErrorCause State :=
  match checkReg src .invalidRegister with
  | .error e => .error e
  | .ok n =>
    match resolveAddress s addr with
    | .error e => .error e
    | .ok ea => memWrite ea (readReg s n) s

/-- What LOAD commits, or the error it raises (R120). -/
def loadReg (dst : RegField) (addr : Source) (s : State) : Except ErrorCause State :=
  match checkReg dst .invalidDestination with
  | .error e => .error e
  | .ok n =>
    match resolveAddress s addr with
    | .error e => .error e
    | .ok ea =>
      match memRead s ea with
      | .error e => .error e
      | .ok b => .ok (writeReg n b s)

/-- STORE Rd, A (R119). -/
def execStore (src : RegField) (addr : Source) (s : State) : Host.Outcome State Fault Refusal :=
  settle s (storeReg src addr s)

/-- LOAD Rd, A (R120). -/
def execLoad (dst : RegField) (addr : Source) (s : State) : Host.Outcome State Fault Refusal :=
  settle s (loadReg dst addr s)

end Sys2Proof.Machine
end

