-- ==== Sys2Proof/Machine/RotateShift.lean ====
section
/-! DEFINITION. ROL, ROR, SHL, SHR (R107 to R112). -/

namespace Sys2Proof.Machine

/-- Bits 7:0 of an unbounded integer, `& 0xFF` (R16). -/
def lowByte (t : Nat) : Nat := t &&& 0xFF

/-- ROL's result: the amount is taken modulo 8 (R109). -/
def rotateLeft (v : Byte) (k : Nat) : Nat := lowByte ((v.toNat <<< (k % 8)) ||| (v.toNat >>> (8 - k % 8)))

/-- ROR's result: the amount is taken modulo 8 (R110). -/
def rotateRight (v : Byte) (k : Nat) : Nat := lowByte ((v.toNat >>> (k % 8)) ||| (v.toNat <<< (8 - k % 8)))

/-- SHL's result: an amount of 8 or more leaves nothing (R111). -/
def shiftLeft (v : Byte) (k : Nat) : Nat := if k ≥ 8 then 0 else lowByte (v.toNat <<< k)

/-- SHR's result: logical; an amount of 8 or more leaves nothing (R112). -/
def shiftRight (v : Byte) (k : Nat) : Nat := if k ≥ 8 then 0 else v.toNat >>> k

/-- The shape of the four: Rd is checked, then the amount is resolved, then it must not be negative, then the result
is committed through the policy (R108). -/
def moveBits (f : Byte → Nat → Nat) (dst : RegField) (amount : Source) (s : State) : Except ErrorCause State :=
  match checkReg dst .invalidRegister with
  | .error e => .error e
  | .ok n =>
    match resolveValue s amount with
    | .error e => .error e
    | .ok k =>
      if k < 0 then .error .invalidOperand
      else .ok (writeResult n (f (readReg s n) k.toNat : Nat) s)

/-- ROL Rd, S (R109). -/
def execRol (dst : RegField) (amount : Source) (s : State) : Host.Outcome State Fault Refusal :=
  settle s (moveBits rotateLeft dst amount s)

/-- ROR Rd, S (R110). -/
def execRor (dst : RegField) (amount : Source) (s : State) : Host.Outcome State Fault Refusal :=
  settle s (moveBits rotateRight dst amount s)

/-- SHL Rd, S (R111). -/
def execShl (dst : RegField) (amount : Source) (s : State) : Host.Outcome State Fault Refusal :=
  settle s (moveBits shiftLeft dst amount s)

/-- SHR Rd, S (R112). -/
def execShr (dst : RegField) (amount : Source) (s : State) : Host.Outcome State Fault Refusal :=
  settle s (moveBits shiftRight dst amount s)

end Sys2Proof.Machine
end

