-- ==== Sys2Proof/Machine/Dispatch.lean ====
section
/-! DEFINITION. `Execute(d)`: the exhaustive match on the instruction (R80). -/

namespace Sys2Proof.Machine

def exec (i : Instr) (s : State) : Host.Outcome State Fault Refusal :=
  match i with
  | .mov src dst => Sys2Proof.Machine.execMov src dst s
  | .add src dst => Sys2Proof.Machine.execAdd src dst s
  | .sub src dst => Sys2Proof.Machine.execSub src dst s
  | .mul src dst => Sys2Proof.Machine.execMul src dst s
  | .div src dst => Sys2Proof.Machine.execDiv src dst s
  | .inc dst => Sys2Proof.Machine.execInc dst s
  | .dec dst => Sys2Proof.Machine.execDec dst s
  | .rol dst amount => Sys2Proof.Machine.execRol dst amount s
  | .ror dst amount => Sys2Proof.Machine.execRor dst amount s
  | .shl dst amount => Sys2Proof.Machine.execShl dst amount s
  | .shr dst amount => Sys2Proof.Machine.execShr dst amount s
  | .inp dst => Sys2Proof.Machine.execIn dst s
  | .out src => Sys2Proof.Machine.execOut src s
  | .store src addr => Sys2Proof.Machine.execStore src addr s
  | .load dst addr => Sys2Proof.Machine.execLoad dst addr s

end Sys2Proof.Machine
end

