-- ==== Sys2Proof/Machine/Step.lean ====
section
/-! DEFINITION. One step: one phase of the instruction cycle (R79; log 2). -/

namespace Sys2Proof.Machine

/-- `Execute`: the accepted word decoded and executed, or abandoned (R79). -/
def runWord (w : Word) (s : State) : Host.Outcome State Fault Refusal :=
  match decodeWord w with
  | .ok i => exec i s
  | .error _ => .next (abandonWord s)

/-- One phase of the machine: reset while `rst = 1` (R137), else the quiet cycle after it (R138), else what the phase does
(R43, R79). A wait that the host
does not end leaves the state as it is (R136); an IN or OUT is executed into its wait and completed from there (R113,
R116). -/
def step (s : State) : Host.Outcome State Fault Refusal :=
  if s.ports.rst then .next (applyReset s)
  else match s.phase with
    | .idle true => .next (endResetCycle s)
    | .idle false => .next (acceptTransfer s)
    | .execute w => runWord w s
    | .waitIn n => .next (awaitInput n s)
    | .waitOut v => .next (awaitOutput v s)
    | .report final => .next (sendReport final s)
    | .ended => .next s

/-- The state with a word accepted, so that the very next step runs it (log 6): `rst` low, phase `Execute` with that
word, and the flags clear, as they are whenever an instruction begins (R34, R79). -/
def State.withFetchWord (s : State) (nbits w : Nat) : State :=
  { s with
    flags := Flags.clear
    phase := .execute (tableWord nbits w)
    ports := { s.ports with rst := false } }

end Sys2Proof.Machine
end

