-- ==== Sys2Proof/Machine/Assembler.lean ====
section
/-! DEFINITION. The host's assembler, from the lines of a program to its instruction words (R72 to R77). It is outside
the block (R6) and no step uses it. -/

namespace Sys2Proof.Assembler

/-- One token of a line. -/
abbrev Token := List Char

/-- Whitespace and commas separate tokens (R72). DESIGN CHOICE (log 9): R72 does not say which characters are
whitespace; here they are space, tab, carriage return and line feed, and no others. -/
def isSeparator (c : Char) : Bool := c.isWhitespace || c == ','

/-- A token that has been read, unless it is empty (R72). -/
def flushToken (current : Token) : List Token := if current = [] then [] else [current.reverse]

/-- The tokens of the rest of a line, with the characters of the current token in reverse and whether the line is inside
a quoted string, where nothing separates (R72). DESIGN CHOICE (log 9): R72 names no quote character; here the double quote alone opens
and closes a quoted string, the single quote is an ordinary character, and nothing escapes a quote. The quotes stay in
the token they stand in. -/
def tokensFrom (quoted : Bool) (current : Token) : List Char → List Token
  | [] => flushToken current
  | c :: rest =>
    if isSeparator c && !quoted then flushToken current ++ tokensFrom quoted [] rest
    else tokensFrom (quoted != (c == '"')) (c :: current) rest

/-- The instruction record of a line: its tokens (R72). -/
def tokenize (line : List Char) : List Token := tokensFrom false [] line

/-- What an operand token is (R74). -/
inductive OperandClass where
  | register (n : Reg)
  | badRegister
  | indirect (n : Reg)
  | badIndirect
  | literal (v : Int)
  | unparseable
deriving DecidableEq, Repr

/-- One or more decimal digits (R74). -/
def isDigits (t : Token) : Bool := !t.isEmpty && t.all Char.isDigit

/-- The value that decimal digits spell (R74). -/
def digitsValue (t : Token) : Nat := t.foldl (fun a c => 10 * a + (c.toNat - '0'.toNat)) 0

/-- The register that the digits after `R` name: exactly one digit, 0 to 6 (R74). -/
def registerOfDigits : Token → Option Reg
  | [c] => if h : c.toNat - '0'.toNat < Config.nReg then some ⟨c.toNat - '0'.toNat, h⟩ else none
  | _ => none

/-- What stands after an opening bracket: `Rn]`, `R<digits>]`, or anything else (R74 case 1). -/
def classifyBracketed : Token → OperandClass
  | 'R' :: more =>
    if isDigits more.dropLast && more.getLast? == some ']' then
      match registerOfDigits more.dropLast with
      | some n => .indirect n
      | none => .badIndirect
    else .unparseable
  | _ => .unparseable

/-- A token that does not begin with a bracket or with `R` (R74 cases 3 and 4). -/
def classifyLiteral : Token → OperandClass
  | '-' :: digits => if isDigits digits then .literal (-(digitsValue digits : Int)) else .unparseable
  | digits => if isDigits digits then .literal (digitsValue digits) else .unparseable

/-- The class of an operand token (R74). -/
def classify : Token → OperandClass
  | '[' :: rest => classifyBracketed rest
  | 'R' :: digits =>
    if isDigits digits then
      match registerOfDigits digits with
      | some n => .register n
      | none => .badRegister
    else .unparseable
  | t => classifyLiteral t

/-- An S or A position (R75, R76). -/
def sourceOperand (t : Token) : Source :=
  match classify t with
  | .register n => .reg (.reg n)
  | .badRegister => .reg .invalid
  | .indirect n => .ind (.reg n)
  | .badIndirect => .ind .invalid
  | .literal v => if -32768 ≤ v ∧ v ≤ 32767 then .imm (BitVec.ofInt 16 v) else .bad 0 0
  | .unparseable => .bad 0 0

/-- A register position (R75, R76). -/
def regOperand (t : Token) : RegField :=
  match classify t with
  | .register n => .reg n
  | _ => .invalid

/-- The instruction of a record, if the mnemonic is known and has that many operands (R73, R75). -/
def instrOfRecord : List Token → Option Instr
  | [m, a] =>
    if m = ['I', 'N', 'C'] then some (.inc (regOperand a))
    else if m = ['D', 'E', 'C'] then some (.dec (regOperand a))
    else if m = ['I', 'N'] then some (.inp (regOperand a))
    else if m = ['O', 'U', 'T'] then some (.out (sourceOperand a))
    else none
  | [m, a, b] =>
    if m = ['M', 'O', 'V'] then some (.mov (sourceOperand a) (regOperand b))
    else if m = ['A', 'D', 'D'] then some (.add (sourceOperand a) (regOperand b))
    else if m = ['S', 'U', 'B'] then some (.sub (sourceOperand a) (regOperand b))
    else if m = ['M', 'U', 'L'] then some (.mul (sourceOperand a) (regOperand b))
    else if m = ['D', 'I', 'V'] then some (.div (sourceOperand a) (regOperand b))
    else if m = ['R', 'O', 'L'] then some (.rol (regOperand a) (sourceOperand b))
    else if m = ['R', 'O', 'R'] then some (.ror (regOperand a) (sourceOperand b))
    else if m = ['S', 'H', 'L'] then some (.shl (regOperand a) (sourceOperand b))
    else if m = ['S', 'H', 'R'] then some (.shr (regOperand a) (sourceOperand b))
    else if m = ['S', 'T', 'O', 'R', 'E'] then some (.store (regOperand a) (sourceOperand b))
    else if m = ['L', 'O', 'A', 'D'] then some (.load (regOperand a) (sourceOperand b))
    else none
  | _ => none

/-- The word of a record: none for a line with no token, the all-zero word for an unknown mnemonic or a wrong number of
operands (R72, R76). -/
def assemble (record : List Token) : Option Word :=
  if record = [] then none
  else match instrOfRecord record with
    | some i => some (encode i)
    | none => some 0

/-- The words of a program, one for each line that has a token, in line order (R72, R141). -/
def assembleProgram (lines : List (List Char)) : List Word := lines.filterMap fun line => assemble (tokenize line)

end Sys2Proof.Assembler
end

