-- ==== Sys2Proof/Machine/Environment.lean ====
section
/-! DEFINITION. What the host may do between two steps (R9 to R14, R141; log 1): offer an instruction word or an
input value, say whether it accepts an output or a report, drive reset. It cannot touch anything else (R14). -/

namespace Sys2Proof.Machine

/-- One move of the host. An offer stands until its transfer (R9), so no move withdraws one. -/
inductive HostMove where
  /-- offer one more transfer on the instruction port (R10) -/
  | offerInstr (x : InstrTransfer)
  /-- offer one more value on the input port (R11) -/
  | offerInput (v : Half)
  /-- drive `out_ready` (R12) -/
  | setOutReady (b : Bool)
  /-- drive `rep_ready` (R13) -/
  | setRepReady (b : Bool)
  /-- drive `rst` (R9) -/
  | setRst (b : Bool)
deriving DecidableEq, Repr

/-- The ports after a move. -/
def movePorts (p : Ports) : HostMove → Ports
  | .offerInstr x => { p with instr := p.instr ++ [x] }
  | .offerInput v => { p with input := p.input ++ [v] }
  | .setOutReady b => { p with outReady := b }
  | .setRepReady b => { p with repReady := b }
  | .setRst b => { p with rst := b }

/-- The state after a move: only the ports change (R14). -/
def applyMove (m : HostMove) (s : State) : State := { s with ports := movePorts s.ports m }

end Sys2Proof.Machine
end

