-- ==== Sys2Proof/Safety.lean ====
section
/-! DEFINITION. The terms claims are made in: what an operand's value is, how an instruction ends, which register an
instruction may write, which words are illegal, the invariants of a state, and the states a run reaches. -/

namespace Sys2Proof.Machine

/-! ### Operands, by form (R84, R85) -/

/-- The data operand has this value (R84): a register, the cell a register names, or a literal. -/
inductive HasValue (s : State) : Source → Int → Prop
  | reg (n : Reg) : HasValue s (.reg (.reg n)) (readReg s n).toNat
  | ind (n : Reg) (bound : (readReg s n).toNat ≤ 63) :
      HasValue s (.ind (.reg n)) (Memory.read s.mem (readReg s n).toNat).toNat
  | imm (v : Half) : HasValue s (.imm v) v.toInt

/-- The data operand has no value, for this cause (R84, R125). -/
inductive ValueFails (s : State) : Source → ErrorCause → Prop
  | reg : ValueFails s (.reg .invalid) .invalidRegister
  | indReg : ValueFails s (.ind .invalid) .invalidRegister
  | ind (n : Reg) (bound : 64 ≤ (readReg s n).toNat) : ValueFails s (.ind (.reg n)) .outOfBounds
  | bad (sreg : BitVec 3) (low : Half) : ValueFails s (.bad sreg low) .invalidOperand

/-- The address operand is this integer, its bounds not yet checked (R85). -/
inductive HasAddress (s : State) : Source → Int → Prop
  | ind (n : Reg) : HasAddress s (.ind (.reg n)) (readReg s n).toNat
  | imm (v : Half) : HasAddress s (.imm v) v.toInt

/-- The address operand is no address, for this cause (R85, R118, R125). -/
inductive AddressFails (s : State) : Source → ErrorCause → Prop
  | reg (r : RegField) : AddressFails s (.reg r) .invalidOperand
  | indReg : AddressFails s (.ind .invalid) .invalidRegister
  | bad (sreg : BitVec 3) (low : Half) : AddressFails s (.bad sreg low) .invalidOperand

/-! ### How an instruction ends -/

/-- The instruction committed `v` to register n and `f` to the flags, and nothing else (R79, R89). -/
def committed (s : State) (n : Reg) (v : Byte) (f : Flags) : State :=
  { s with regs := s.regs.set n.val v, flags := f, err := 0, pc := s.pc + 1, phase := .report false }

/-- The instruction committed the exact result `t` to register n through the policy (R87, R89). -/
def committedResult (s : State) (n : Reg) (t : Int) : State := committed s n (policy t).1 (policy t).2

/-- The instruction was abandoned with this `ERR` code, and nothing else was written (R126). -/
def abandoned (s : State) (code : BitVec 3) : State :=
  { s with err := code, pc := s.pc + 1, phase := .report false }

/-! ### Instructions -/

/-- The register a field names, if it names one (R63). -/
def fieldReg : RegField → Option Reg
  | .reg n => some n
  | .invalid => none

/-- The register an instruction may write (R26): its Rd, except for OUT and STORE, which write none. -/
def destination : Instr → Option Reg
  | .mov _ dst => fieldReg dst
  | .add _ dst => fieldReg dst
  | .sub _ dst => fieldReg dst
  | .mul _ dst => fieldReg dst
  | .div _ dst => fieldReg dst
  | .inc dst => fieldReg dst
  | .dec dst => fieldReg dst
  | .rol dst _ => fieldReg dst
  | .ror dst _ => fieldReg dst
  | .shl dst _ => fieldReg dst
  | .shr dst _ => fieldReg dst
  | .inp dst => fieldReg dst
  | .out _ => none
  | .store _ _ => none
  | .load dst _ => fieldReg dst

/-- The instructions whose commit goes through the flag policy (R32, R88). -/
def appliesPolicy : Instr → Bool
  | .mov _ _ => true
  | .add _ _ => true
  | .sub _ _ => true
  | .mul _ _ => true
  | .div _ _ => true
  | .inc _ => true
  | .dec _ => true
  | .rol _ _ => true
  | .ror _ _ => true
  | .shl _ _ => true
  | .shr _ _ => true
  | .inp _ => true
  | .out _ => false
  | .store _ _ => false
  | .load _ _ => false

/-- The amount operand of a rotate or shift (R108). -/
def amountOf : Instr → Option Source
  | .rol _ amount => some amount
  | .ror _ amount => some amount
  | .shl _ amount => some amount
  | .shr _ amount => some amount
  | .mov _ _ => none
  | .add _ _ => none
  | .sub _ _ => none
  | .mul _ _ => none
  | .div _ _ => none
  | .inc _ => none
  | .dec _ => none
  | .inp _ => none
  | .out _ => none
  | .store _ _ => none
  | .load _ _ => none

/-! ### Words -/

/-- A field that the word's form does not use is not zero (R67). -/
def unusedFieldSet (w : Word) : Prop :=
  ((opOf w = 6 ∨ opOf w = 7 ∨ opOf w = 12) ∧ (smodeOf w ≠ 0 ∨ sregOf w ≠ 0 ∨ immOf w ≠ 0)) ∨
  (opOf w = 13 ∧ rOf w ≠ 0) ∨
  ((opOf w ≠ 6 ∧ opOf w ≠ 7 ∧ opOf w ≠ 12) ∧ (smodeOf w = 0 ∨ smodeOf w = 1) ∧ immOf w ≠ 0) ∨
  ((opOf w ≠ 6 ∧ opOf w ≠ 7 ∧ opOf w ≠ 12) ∧ smodeOf w = 2 ∧ sregOf w ≠ 0)

/-- The encodings that R69 answers with `InvalidInstruction`. -/
def illegalWord (w : Word) : Prop := opOf w = 0 ∨ sbzOf w ≠ 0 ∨ unusedFieldSet w

/-! ### Invariants -/

/-- The only flag values (R35). -/
def legalFlags (f : Flags) : Prop :=
  f = Flags.clear ∨ f = Flags.zero ∨ f = Flags.overflow ∨ f = Flags.underflow

/-- What holds between any two steps: the memory is in its canonical form inside [0,63] (R40), `ERR` is never 7 (R39),
the flags are a legal combination (R35), and they are set only while the instruction's own report waits (R34). -/
structure StateInv (s : State) : Prop where
  memory : Memory.wf s.mem = true
  errLegal : s.err ≠ 7
  flagsLegal : legalFlags s.flags
  flagsTransient : s.phase ≠ .report false → s.flags = Flags.clear

/-- 1 while a per-instruction report waits, else 0. -/
def pendingReports (s : State) : Nat := if s.phase = .report false then 1 else 0

/-- The reports of a run (R30, R143, R144): the k-th per-instruction report shows k modulo 65536; a final report is the
last, shows the number of instructions, flags and `ERR` zero, and the machine is ended; `PC` counts the words. -/
structure ReportsInOrder (s : State) : Prop where
  numbered : ∀ k r, s.ports.reports[k]? = some r → r.final = false → r.pc = BitVec.ofNat 16 (k + 1)
  final : ∀ k r, s.ports.reports[k]? = some r → r.final = true →
    k + 1 = s.ports.reports.length ∧ s.phase = .ended ∧ r.pc = BitVec.ofNat 16 k ∧ r.flags = 0 ∧ r.err = 0
  counted : s.pc = BitVec.ofNat 16 ((s.ports.reports.filter fun r => !r.final).length + pendingReports s)

/-- What a report can show (R35, R39). -/
def legalReport (r : Report) : Prop :=
  (r.flags = 0b0000 ∨ r.flags = 0b1000 ∨ r.flags = 0b1011 ∨ r.flags = 0b0100) ∧ r.err ≠ 7

/-! ### Runs -/

/-- The states a run reaches from reset, the host moving as it likes between steps. -/
inductive Reachable : State → Prop
  | reset : Reachable State.reset
  | step {s t : State} : Reachable s → step s = .next t → Reachable t
  | move {s : State} (m : HostMove) : Reachable s → Reachable (applyMove m s)

end Sys2Proof.Machine
end

