-- ==== Sys2Proof/Certificates/Slice0/Obligations.lean ====
section
/-! DEFINITION. The statements about ALI-CORE for the provers, one definition each, from the numbered rules of spec/. -/

namespace Sys2Proof.Claims

open Sys2Proof.Machine

/-! ### The shapes of the instruction rules. Each gives the encoding, the result on every operand form, and each error in
its order; the next state is written out whole, so that everything not named in it is unchanged. -/

/-- The word with opcode `op`, `src` in smode/sreg/imm and `r` in the r field is the instruction `i` (R62, R66). -/
def EncodedAs (op : BitVec 4) (src : Source) (r : RegField) (i : Instr) : Prop :=
  decodeWord (packFields op src.smodeBits src.sregBits (encodeReg r) 0 src.immBits) = .ok i

/-- `op S, Rd` with an exact result computed from Rd's old value and S's value. -/
def SourceToRegRule (op : BitVec 4) (mk : Source → RegField → Instr) (result : Int → Int → Int) : Prop :=
  ∀ (s : State) (src : Source) (dst : RegField),
    EncodedAs op src dst (mk src dst) ∧
    (∀ n v, dst = .reg n → HasValue s src v →
      exec (mk src dst) s = .next (committedResult s n (result (readReg s n).toNat v))) ∧
    (∀ e, ValueFails s src e → exec (mk src dst) s = .next (abandoned s (errorCode e))) ∧
    (∀ v, dst = .invalid → HasValue s src v → exec (mk src dst) s = .next (abandoned s 3))

/-- `op Rd, S` that moves the bits of Rd by S: `moved v k b` says that `b` is `v` moved by `k`. -/
def BitMoveRule (op : BitVec 4) (mk : RegField → Source → Instr) (moved : Byte → Nat → Byte → Prop) : Prop :=
  ∀ (s : State) (dst : RegField) (amount : Source),
    EncodedAs op amount dst (mk dst amount) ∧
    (∀ n k, dst = .reg n → HasValue s amount k → 0 ≤ k →
      ∃ b, moved (readReg s n) k.toNat b ∧
        exec (mk dst amount) s =
          .next (committed s n b { cf := false, of := false, uf := false, zf := decide (b = 0) })) ∧
    (dst = .invalid → exec (mk dst amount) s = .next (abandoned s 2)) ∧
    (∀ n e, dst = .reg n → ValueFails s amount e → exec (mk dst amount) s = .next (abandoned s (errorCode e))) ∧
    (∀ n k, dst = .reg n → HasValue s amount k → k < 0 → exec (mk dst amount) s = .next (abandoned s 5))

/-- A memory with the value `v` in cell `a` and every other cell as in `m`. -/
def CellSet (m : List Host.Cell) (a : Int) (v : Byte) (m' : List Host.Cell) : Prop :=
  Memory.wf m' = true ∧ ∀ b : Nat, Memory.read m' b = if (b : Int) = a then v else Memory.read m b

/-- The arithmetic instruction `i` computes the exact result `t` for register `n`: `t` is in [lo, hi] and in a 25-bit
two's-complement datapath, it is committed through the policy, and out of [0,255] it is committed saturated. -/
def ExactResult (i : Instr) (s : State) (n : Reg) (t lo hi : Int) : Prop :=
  exec i s = .next (committedResult s n t) ∧ lo ≤ t ∧ t ≤ hi ∧ -(2 ^ 24) ≤ t ∧ t < 2 ^ 24 ∧
  (t > 255 → exec i s = .next (committed s n 0 { cf := true, of := true, uf := false, zf := true })) ∧
  (t < 0 → exec i s = .next (committed s n 255 { cf := false, of := false, uf := true, zf := false }))

/-- `t'` is what the same effect gives that led from `s` to `t`, from a state that differs from `s` only in flags, `PC`
and `ERR`, there `p` and `e`: all but these is the same, `PC` changed alike, and `ERR` is the same if it was written. -/
def SameButStatus (s t t' : State) (p : Half) (e : BitVec 3) : Prop :=
  t'.regs = t.regs ∧ t'.mem = t.mem ∧ t'.ports = t.ports ∧ t'.phase = t.phase ∧ t'.pc - p = t.pc - s.pc ∧
  t'.err = if t.phase = .report false then t.err else e

/-- `instr_ready`, `in_req` and `in_ready`, `out_valid`, `rep_valid` are 0 (R138). -/
def DrivesNothing (s : State) : Prop :=
  instrReady s = false ∧ inReady s = false ∧ outValid s = none ∧ repValid s = none

end Sys2Proof.Claims

open Sys2Proof Sys2Proof.Machine Sys2Proof.Claims

/-! ### Reset and the step -/

/-- R137, R28, R36, R41: reset puts every piece of state to its reset value, whatever the phase (values: decision D15). -/
def Obligations.ResetPutsEveryPieceToItsValue : Prop :=
  ∀ s : State, s.ports.rst = true → ∃ t, step s = .next t ∧
    (∀ n, readReg t n = 0) ∧ (∀ a, Memory.read t.mem a = 0) ∧
    t.flags = { cf := false, of := false, uf := false, zf := false } ∧ t.pc = 0 ∧ t.err = 0 ∧ t.phase = .idle true

/-- R138: from every phase, while `rst` is 1 and in the first cycle after it the core drives no port; the reset abandons
what was in progress, leaves the core's state at its reset values, and sends no report; after that first cycle, in which
nothing changes, the core is idle and accepts the next word, and so a new run starts, from Ended too. (That the quiet
cycle is one step is log 2; that the record of reports begins again and the host's offers stand is log 5.) -/
def Obligations.ResetIsQuietForOneCycle : Prop :=
  ∀ s : State, s.ports.rst = true → DrivesNothing s ∧
    ∃ t, step s = .next t ∧ { t with ports := s.ports } = { State.reset with ports := s.ports } ∧ t.ports.reports = [] ∧
      DrivesNothing (applyMove (.setRst false) t) ∧
      ∃ u, step (applyMove (.setRst false) t) = .next u ∧
        u = { applyMove (.setRst false) t with phase := .idle false } ∧ instrReady u = true ∧
        ∀ w rest, s.ports.instr = ⟨w, false⟩ :: rest →
          ∃ v, step u = .next v ∧ v.phase = .execute w ∧ v.ports.instr = rest

/-- The state the model calls reset is what a reset leaves, with nothing offered and the host ready (the levels of the
host's inputs are the model's choice, log 1), and the invariant holds in it. -/
def Obligations.ResetStateHasInvariant : Prop :=
  StateInv State.reset ∧ ReportsInOrder State.reset ∧
    ∀ s : State, s.ports.rst = true → step s =
      .next { State.reset with ports := { s.ports with output := [], reports := [] } }

/-- In phase Execute with a word that decodes to `i`, a step is `exec i`, and nothing is added around it; and the step
from a state that `withFetchWord` gives runs the word (one phase a step: log 2, log 6). -/
def Obligations.ExecutePhaseRunsDecodedWord : Prop :=
  (∀ (s : State) (w : Word) (i : Instr), s.ports.rst = false → s.phase = .execute w → decodeWord w = .ok i →
    step s = exec i s) ∧
  (∀ (s : State) (b0 b1 b2 b3 : Byte) (i : Instr), s.ports.rst = false →
    s.phase = .execute (wordOfBytes b0 b1 b2 b3) → decodeBytes [b0, b1, b2, b3] = .ok (i, []) → step s = exec i s) ∧
  (∀ (s : State) (nbits w : Nat) (i : Instr), decodeTableWord nbits w = some i →
    step (s.withFetchWord nbits w) = exec i (s.withFetchWord nbits w))

/-- Words written out from the fields of R62 (the lines of R78 and of 95_test_vectors.md). -/
def Obligations.WrittenOutWordsDecode : Prop :=
  decodeWord 0x15C00000#32 = .ok (.mov (.ind (.reg 3)) (.reg 4)) ∧
  decodeWord 0x5810FFFD#32 = .ok (.div (.imm 0xFFFD) (.reg 1)) ∧
  decodeWord 0x60300000#32 = .ok (.inc (.reg 3)) ∧
  decodeWord 0xB6200000#32 = .ok (.shr (.reg 2) (.ind (.reg 4))) ∧
  decodeWord 0xC0400000#32 = .ok (.inp (.reg 4)) ∧
  decodeWord 0xD800FFF9#32 = .ok (.out (.imm 0xFFF9)) ∧
  decodeWord 0xE5100000#32 = .ok (.store (.reg 1) (.ind (.reg 2))) ∧
  decodeWord 0xF820003F#32 = .ok (.load (.reg 2) (.imm 63))

/-! ### The flag policy and the memory primitives -/

/-- R87: out-of-range results saturate, and each range sets its flags. -/
def Obligations.PolicySaturates : Prop :=
  ∀ t : Int,
    (t > 255 → policy t = (0, { cf := true, of := true, uf := false, zf := true })) ∧
    (t < 0 → policy t = (255, { cf := false, of := false, uf := true, zf := false })) ∧
    (t = 0 → policy t = (0, { cf := false, of := false, uf := false, zf := true })) ∧
    (1 ≤ t → t ≤ 255 → ((policy t).1.toNat : Int) = t ∧
      (policy t).2 = { cf := false, of := false, uf := false, zf := false })

/-- R48: a memory read is bounds-checked, neither wrapped nor clamped. -/
def Obligations.MemReadIsBoundsChecked : Prop :=
  ∀ (s : State) (a : Int),
    (0 ≤ a → a ≤ 63 → memRead s a = .ok (Memory.read s.mem a.toNat)) ∧
    (a < 0 ∨ a > 63 → memRead s a = .error .outOfBounds)

/-- R49: a memory write is bounds-checked and changes one cell; only STORE writes memory, and a failed STORE writes
nothing. -/
def Obligations.MemWriteIsBoundsChecked : Prop :=
  ∀ (s : State) (a : Int) (v : Byte),
    (0 ≤ a → a ≤ 63 → Memory.wf s.mem = true →
      ∃ m, memWrite a v s = .ok { s with mem := m } ∧ CellSet s.mem a v m) ∧
    (a < 0 ∨ a > 63 → memWrite a v s = .error .outOfBounds) ∧
    (∀ i t, exec i s = .next t → (∀ r addr, i ≠ .store r addr) → t.mem = s.mem) ∧
    (∀ r addr t, exec (.store r addr) s = .next t → t.err ≠ 0 → t.mem = s.mem)

/-! ### Data movement and arithmetic -/

/-- R97: MOV. -/
def Obligations.MovCopiesThroughPolicy : Prop := SourceToRegRule 1 Instr.mov fun _ v => v

/-- R98: a literal in [0,255] reads back, and only 0 sets a flag. -/
def Obligations.MovLiteralReadsBack : Prop :=
  ∀ (s : State) (n : Reg) (v : Half), 0 ≤ v.toInt → v.toInt ≤ 255 →
    ∃ t, exec (.mov (.imm v) (.reg n)) s = .next t ∧ ((readReg t n).toNat : Int) = v.toInt ∧
      t.flags = { cf := false, of := false, uf := false, zf := decide (v = 0) }

/-- R100: ADD. -/
def Obligations.AddCommitsSum : Prop := SourceToRegRule 2 Instr.add fun d v => d + v

/-- R101: SUB, destination minus source. -/
def Obligations.SubCommitsDifference : Prop := SourceToRegRule 3 Instr.sub fun d v => d - v

/-- R102: MUL, the exact product. -/
def Obligations.MulCommitsProduct : Prop := SourceToRegRule 4 Instr.mul fun d v => d * v

/-- R103: DIV: destination divided by source toward zero; a zero source is `DivisionByZero` and changes nothing, after
every operand error. -/
def Obligations.DivCommitsQuotient : Prop :=
  ∀ (s : State) (src : Source) (dst : RegField),
    EncodedAs 5 src dst (.div src dst) ∧
    (∀ n v, dst = .reg n → HasValue s src v → v ≠ 0 →
      exec (.div src dst) s = .next (committedResult s n (Int.tdiv (readReg s n).toNat v))) ∧
    (∀ n, dst = .reg n → HasValue s src 0 → exec (.div src dst) s = .next (abandoned s 6)) ∧
    (∀ e, ValueFails s src e → exec (.div src dst) s = .next (abandoned s (errorCode e))) ∧
    (∀ v, dst = .invalid → HasValue s src v → exec (.div src dst) s = .next (abandoned s 3))

/-- R92: DIV's sign table: what is committed and which flags are set, for every sign of the divisor. -/
def Obligations.DivSignTable : Prop :=
  ∀ (s : State) (src : Source) (n : Reg) (v : Int), HasValue s src v →
    (v = 0 → exec (.div src (.reg n)) s = .next (abandoned s 6)) ∧
    (v ≠ 0 → ((readReg s n).toNat : Int) < |v| → exec (.div src (.reg n)) s =
      .next (committed s n 0 { cf := false, of := false, uf := false, zf := true })) ∧
    (0 < v → v ≤ (readReg s n).toNat → ∃ q : Byte, exec (.div src (.reg n)) s =
        .next (committed s n q { cf := false, of := false, uf := false, zf := false }) ∧
      1 ≤ q.toNat ∧ q.toNat * v ≤ (readReg s n).toNat ∧ ((readReg s n).toNat : Int) < (q.toNat + 1) * v) ∧
    (v < 0 → |v| ≤ (readReg s n).toNat → exec (.div src (.reg n)) s =
      .next (committed s n 255 { cf := false, of := false, uf := true, zf := false }))

/-- R104, R106: INC: 255 overflows to 0, every other value becomes the next one and sets no flag. -/
def Obligations.IncAddsOne : Prop :=
  ∀ (s : State) (dst : RegField),
    decodeWord (packFields 6 0 0 (encodeReg dst) 0 0) = .ok (.inc dst) ∧
    (dst = .invalid → exec (.inc dst) s = .next (abandoned s 2)) ∧
    (∀ n, dst = .reg n → readReg s n = 255 → exec (.inc dst) s =
      .next (committed s n 0 { cf := true, of := true, uf := false, zf := true })) ∧
    (∀ n, dst = .reg n → readReg s n ≠ 255 → exec (.inc dst) s =
      .next (committed s n (readReg s n + 1) { cf := false, of := false, uf := false, zf := false }))

/-- R105, R106: DEC: 0 underflows to 255, 1 becomes 0 with ZF, every other value becomes the one before. -/
def Obligations.DecSubtractsOne : Prop :=
  ∀ (s : State) (dst : RegField),
    decodeWord (packFields 7 0 0 (encodeReg dst) 0 0) = .ok (.dec dst) ∧
    (dst = .invalid → exec (.dec dst) s = .next (abandoned s 2)) ∧
    (∀ n, dst = .reg n → readReg s n = 0 → exec (.dec dst) s =
      .next (committed s n 255 { cf := false, of := false, uf := true, zf := false })) ∧
    (∀ n, dst = .reg n → readReg s n ≠ 0 → exec (.dec dst) s =
      .next (committed s n (readReg s n - 1)
        { cf := false, of := false, uf := false, zf := decide (readReg s n = 1) }))

/-- R91: the exact result of each of the six operations, its range, and what an overflow commits; every one fits the
25-bit datapath (R90). -/
def Obligations.IntermediatesFitDatapath : Prop :=
  ∀ (s : State) (n : Reg) (d : Int), d = (readReg s n).toNat →
    (∀ src v, HasValue s src v →
      ExactResult (.add src (.reg n)) s n (d + v) (-32768) 33022 ∧
      ExactResult (.sub src (.reg n)) s n (d - v) (-32767) 33023 ∧
      ExactResult (.mul src (.reg n)) s n (d * v) (-8355840) 8355585 ∧
      (v ≠ 0 → ExactResult (.div src (.reg n)) s n (Int.tdiv d v) (-255) 255 ∧
        (Int.tdiv d v < 0 ↔ v < 0 ∧ |v| ≤ d))) ∧
    ExactResult (.inc (.reg n)) s n (d + 1) 1 256 ∧
    ExactResult (.dec (.reg n)) s n (d - 1) (-1) 254

/-! ### Rotate and shift -/

/-- R109, R107: ROL moves bit i to position i + amount modulo 8 and loses none. -/
def Obligations.RolRotatesLeft : Prop :=
  BitMoveRule 8 Instr.rol fun v k b => ∀ i < 8, b.getLsbD ((i + k) % 8) = v.getLsbD i

/-- R110, R107: ROR takes bit i from position i + amount modulo 8 and loses none. -/
def Obligations.RorRotatesRight : Prop :=
  BitMoveRule 9 Instr.ror fun v k b => ∀ i < 8, b.getLsbD i = v.getLsbD ((i + k) % 8)

/-- R111, R107: SHL moves bits up, zero-filling; the amount is not reduced modulo 8. -/
def Obligations.ShlShiftsLeft : Prop :=
  BitMoveRule 10 Instr.shl fun v k b => ∀ i < 8, b.getLsbD i = (decide (k ≤ i) && v.getLsbD (i - k))

/-- R112, R107: SHR moves bits down, zero-filling; the amount is not reduced modulo 8. -/
def Obligations.ShrShiftsRight : Prop :=
  BitMoveRule 11 Instr.shr fun v k b => ∀ i < 8, b.getLsbD i = (decide (i + k < 8) && v.getLsbD (i + k))

/-! ### Input and output -/

/-- R115: IN requests a value, in WaitIn, and once one is offered takes it and commits it through the policy; with field 7
nothing is requested or consumed. (Executing and serving the wait are two steps: log 2.) -/
def Obligations.InReadsOneValue : Prop :=
  ∀ (s : State) (dst : RegField),
    decodeWord (packFields 12 0 0 (encodeReg dst) 0 0) = .ok (.inp dst) ∧
    (dst = .invalid → exec (.inp dst) s = .next (abandoned s 3)) ∧
    (∀ n, dst = .reg n → ∃ t, exec (.inp dst) s = .next t ∧ t = { s with phase := .waitIn n } ∧
      ∀ v rest, s.ports.rst = false → s.ports.input = v :: rest → step t =
        .next (committedResult { s with ports := { s.ports with input := rest } } n v.toInt))

/-- R113: IN enters WaitIn whether or not a value is offered already; there the core asks for a value, takes no word and
sends no report; without a value nothing changes, with one the waiting IN commits it (in a step of its own: log 2). -/
def Obligations.WaitInWaitsForOneValue : Prop :=
  (∀ (s : State) (n : Reg), ∃ t, exec (.inp (.reg n)) s = .next t ∧ t.phase = .waitIn n ∧ t.ports = s.ports) ∧
  ∀ (s : State) (n : Reg), s.ports.rst = false → s.phase = .waitIn n →
    inReady s = true ∧ instrReady s = false ∧ repValid s = none ∧ outValid s = none ∧
    (s.ports.input = [] → step s = .next s) ∧
    (∀ v rest, s.ports.input = v :: rest → ∃ t, step s = .next t ∧ inReady t = false ∧
      t = committedResult { s with ports := { s.ports with input := rest } } n v.toInt)

/-- R117: OUT presents the resolved value, its 16-bit two's-complement form, in WaitOut, and once the host is ready sends
it once; it writes no register, cell or flag; a bad operand sends nothing. (Executing and serving the wait are two
steps: log 2.) -/
def Obligations.OutSendsOneValue : Prop :=
  ∀ (s : State) (src : Source),
    decodeWord (packFields 13 src.smodeBits src.sregBits 0 0 src.immBits) = .ok (.out src) ∧
    (∀ v, HasValue s src v → ∃ (x : Half) (t : State), (x.toNat : Int) = v % 65536 ∧
      exec (.out src) s = .next t ∧ t = { s with phase := .waitOut x } ∧
      (s.ports.rst = false → s.ports.outReady = true → step t =
        .next { s with ports := { s.ports with output := s.ports.output ++ [x] }
                       err := 0, pc := s.pc + 1, phase := .report false })) ∧
    (∀ e, ValueFails s src e → exec (.out src) s = .next (abandoned s (errorCode e)))

/-- R116: OUT enters WaitOut whether or not the host is ready already, with the value modulo 65536; there the core holds
`out_data` and `out_valid` until the host accepts, then sends it once (in a step of its own: log 2). -/
def Obligations.WaitOutHoldsItsValue : Prop :=
  (∀ (s : State) (src : Source) (v : Int), HasValue s src v → ∃ (x : Half) (t : State), exec (.out src) s = .next t ∧
    t.phase = .waitOut x ∧ (x.toNat : Int) = v % 65536 ∧ t.ports = s.ports) ∧
  ∀ (s : State) (v : Half), s.ports.rst = false → s.phase = .waitOut v →
    outValid s = some v ∧
    (s.ports.outReady = false → step s = .next s) ∧
    (s.ports.outReady = true → ∃ t, step s = .next t ∧ outValid t = none ∧
      t = { s with ports := { s.ports with output := s.ports.output ++ [v] }
                   err := 0, pc := s.pc + 1, phase := .report false })

/-! ### Load and store -/

/-- R119: STORE writes the register's value into the addressed cell and nothing else; each error in its order changes no
cell. -/
def Obligations.StoreWritesOneCell : Prop :=
  ∀ (s : State) (src : RegField) (addr : Source),
    EncodedAs 14 addr src (.store src addr) ∧
    (src = .invalid → exec (.store src addr) s = .next (abandoned s 2)) ∧
    (∀ n e, src = .reg n → AddressFails s addr e → exec (.store src addr) s = .next (abandoned s (errorCode e))) ∧
    (∀ n a, src = .reg n → HasAddress s addr a → (a < 0 ∨ a > 63) →
      exec (.store src addr) s = .next (abandoned s 4)) ∧
    (∀ n a, src = .reg n → HasAddress s addr a → 0 ≤ a → a ≤ 63 → Memory.wf s.mem = true →
      ∃ m, CellSet s.mem a (readReg s n) m ∧ exec (.store src addr) s =
        .next { s with mem := m, err := 0, pc := s.pc + 1, phase := .report false }) ∧
    (∀ t a, exec (.store src addr) s = .next t → resolveAddress s addr = .ok a → Memory.wf s.mem = true →
      ∀ b : Nat, (b : Int) ≠ a → Memory.read t.mem b = Memory.read s.mem b)

/-- R120: LOAD copies the addressed cell into the register and writes no flag, even for 0; each error in its order. -/
def Obligations.LoadReadsOneCell : Prop :=
  ∀ (s : State) (dst : RegField) (addr : Source),
    EncodedAs 15 addr dst (.load dst addr) ∧
    (dst = .invalid → exec (.load dst addr) s = .next (abandoned s 3)) ∧
    (∀ n e, dst = .reg n → AddressFails s addr e → exec (.load dst addr) s = .next (abandoned s (errorCode e))) ∧
    (∀ n a, dst = .reg n → HasAddress s addr a → (a < 0 ∨ a > 63) →
      exec (.load dst addr) s = .next (abandoned s 4)) ∧
    (∀ n a, dst = .reg n → HasAddress s addr a → 0 ≤ a → a ≤ 63 →
      exec (.load dst addr) s = .next (committed s n (Memory.read s.mem a.toNat) s.flags))

/-- R121: a stored value is loaded back from the same address, through the bare decimal forms (an inference the spec marks
as its own, from R119, R120, R48, R49). -/
def Obligations.StoreThenLoadReturnsValue : Prop :=
  ∀ (s : State) (a : Half), Memory.wf s.mem = true → 0 ≤ a.toInt → a.toInt ≤ 63 →
    ∃ t u, exec (.store (.reg 0) (.imm a)) s = .next t ∧ exec (.load (.reg 1) (.imm a)) t = .next u ∧
      readReg u 1 = readReg s 0 ∧ readReg u 0 = readReg s 0 ∧ u.flags = s.flags ∧ u.pc = s.pc + 2

/-! ### All instructions -/

/-- Frame of all instructions: no register but the destination changes, neither when the instruction is executed nor when
the wait of an IN or OUT is served (R26; the spec marks its reading as derived). -/
def Obligations.OnlyDestinationChanges : Prop :=
  (∀ (i : Instr) (s t : State) (n : Reg), exec i s = .next t → destination i ≠ some n → readReg t n = readReg s n) ∧
  (∀ (s t : State) (m n : Reg), s.ports.rst = false → s.phase = .waitIn m → step s = .next t → n ≠ m →
    readReg t n = readReg s n) ∧
  (∀ (s t : State) (v : Half), s.ports.rst = false → s.phase = .waitOut v → step s = .next t → t.regs = s.regs)

/-- R32: the flags change only at the commit of an instruction that applies the policy (IN commits at the end of its
wait); LOAD, STORE and OUT write none, and an abandoned instruction writes none (decision D17). -/
def Obligations.FlagsWrittenOnlyByPolicy : Prop :=
  (∀ (i : Instr) (s t : State), exec i s = .next t →
    (appliesPolicy i = false → t.flags = s.flags) ∧
    (t.phase = .report false → t.err ≠ 0 → t.flags = s.flags) ∧
    (t.phase = .report false → t.err = 0 → appliesPolicy i = true → ∃ x, t.flags = (policy x).2) ∧
    (t.phase ≠ .report false → t.flags = s.flags)) ∧
  (∀ (s t : State) (n : Reg), s.ports.rst = false → s.phase = .waitIn n → step s = .next t →
    (t.phase = .waitIn n ∧ t.flags = s.flags) ∨
    (t.phase = .report false ∧ ∃ v rest, s.ports.input = v :: rest ∧ t.flags = (policy v.toInt).2)) ∧
  (∀ (s t : State) (v : Half), s.ports.rst = false → s.phase = .waitOut v → step s = .next t → t.flags = s.flags)

/-- R126, first part: an instruction that raises an error writes nothing, sends nothing and consumes nothing; `ERR` takes
the code and `PC` advances; its report is then sent, the flags cleared, and the machine is idle (decision D17). -/
def Obligations.ErrorsArePrecise : Prop :=
  ∀ (i : Instr) (s t : State), exec i s = .next t → t.phase = .report false → t.err ≠ 0 →
    t = { s with err := t.err, pc := s.pc + 1, phase := .report false } ∧ t.err ≠ 7 ∧
    (s.ports.rst = false → s.ports.repReady = true → ∃ r, step t =
      .next { t with flags := Flags.clear, phase := .idle false
                     ports := { s.ports with reports := s.ports.reports ++ [r] } } ∧
      r.err = t.err ∧ r.pc = t.pc ∧ r.regs = s.regs ∧ r.final = false)

/-- Every instruction, from every state, ends with its report pending and `PC` advanced once, or is an IN or OUT that
enters its wait with nothing else changed (R30, R39, R43). -/
def Obligations.EveryInstructionEndsOrWaits : Prop :=
  ∀ (i : Instr) (s : State), ∃ t, exec i s = .next t ∧
    ((t.phase = .report false ∧ t.pc = s.pc + 1 ∧ t.err ≠ 7) ∨
     (∃ n, i = .inp (.reg n) ∧ t = { s with phase := .waitIn n }) ∨
     (∃ src v, i = .out src ∧ t = { s with phase := .waitOut v }))

/-- No instruction reads `FLAGS`, `PC` or `ERR`, neither when it is executed nor when its wait is served: with any values
of them it does the same to the registers, the memory, the ports and the phase; the flags that a completed policy
instruction writes do not depend on the old ones, and flags that are not written stay (R33, R38; the spec marks R33 as
derived). -/
def Obligations.NoInstructionReadsStatus : Prop :=
  (∀ (i : Instr) (s t : State) (f : Flags) (p : Half) (e : BitVec 3), exec i s = .next t →
    ∃ t', exec i { s with flags := f, pc := p, err := e } = .next t' ∧ SameButStatus s t t' p e ∧
      t'.flags = if t.phase = .report false ∧ t.err = 0 ∧ appliesPolicy i = true then t.flags else f) ∧
  (∀ (s t : State) (n : Reg) (f : Flags) (p : Half) (e : BitVec 3),
    s.ports.rst = false → s.phase = .waitIn n → step s = .next t →
    ∃ t', step { s with flags := f, pc := p, err := e } = .next t' ∧ SameButStatus s t t' p e ∧
      t'.flags = if t.phase = .report false then t.flags else f) ∧
  (∀ (s t : State) (v : Half) (f : Flags) (p : Half) (e : BitVec 3),
    s.ports.rst = false → s.phase = .waitOut v → step s = .next t →
    ∃ t', step { s with flags := f, pc := p, err := e } = .next t' ∧ SameButStatus s t t' p e ∧ t'.flags = f)

/-- A well-formed instruction never reports a bad register, destination or word, and reports `InvalidOperand` only for a
rotate or shift by a negative literal (R69, R122). -/
def Obligations.WellFormedNamesNoBadOperand : Prop :=
  ∀ (i : Instr) (s t : State), i.wf = true → exec i s = .next t → t.phase = .report false →
    t.err ≠ 1 ∧ t.err ≠ 2 ∧ t.err ≠ 3 ∧
    (t.err = 5 → ∃ v, amountOf i = some (.imm v) ∧ v.toInt < 0) ∧
    (t.err = 6 → ∃ src dst, i = .div src dst)

/-! ### Words -/

/-- R68: a word with a reserved bit set is abandoned with `InvalidInstruction`; so is a word of opcode 0 and one with an
unused field set (R67, R69). -/
def Obligations.ReservedWordsAreAbandoned : Prop :=
  ∀ (s : State) (w : Word), s.ports.rst = false → s.phase = .execute w → illegalWord w →
    step s = .next (abandoned s 1)

/-- Every other word is an instruction, and its encoding is that word: decoding is total and drops no bit (R69, R70). -/
def Obligations.EveryOtherWordIsAnInstruction : Prop :=
  ∀ w : Word, ¬ illegalWord w → ∃ i, decodeWord w = .ok i ∧ encode i = w

/-- Decoding an encoded instruction gives it back, as a word and as the bytes of a host's file, whatever follows. -/
def Obligations.DecodeOfEncodeIsTheInstruction : Prop :=
  ∀ (i : Instr) (rest : List Byte),
    decodeWord (encode i) = .ok i ∧ decodeBytes (encodeBytes i ++ rest) = .ok (i, rest) ∧
      decodeTableWord 32 (encode i).toNat = some i

/-- An instruction has one word: what decodes to it is its encoding. -/
def Obligations.EncodeOfDecodeIsTheWord : Prop :=
  ∀ (w : Word) (i : Instr), decodeWord w = .ok i → encode i = w ∧ ¬ illegalWord w

/-- The assembler's words are instructions or the all-zero word: it never sets a field that a form does not use (R67, R75,
R76). -/
def Obligations.AssembledWordsAreLegal : Prop :=
  ∀ (record : List Assembler.Token) (w : Word), Assembler.assemble record = some w →
    w = 0 ∨ ((∃ i, Assembler.instrOfRecord record = some i ∧ decodeWord w = .ok i) ∧ ¬ illegalWord w)

/-! ### The instruction cycle and runs -/

/-- R128: no error stops the core: a step always answers a next state. -/
def Obligations.NoErrorStopsTheCore : Prop := ∀ s : State, ∃ t, step s = .next t

/-- The instruction cycle (R79) of a word whose instruction ends without a wait: three steps from Idle (a
step is a phase: log 2): the word is
accepted, executed (or abandoned), and reported with the flags it left, after which the flags are clear and the machine is
idle. The report is sent after `ERR` and `PC` are written (R81). -/
def Obligations.InstructionCycle : Prop :=
  ∀ (s u : State) (w : Word) (rest : List InstrTransfer),
    s.ports.rst = false → s.phase = .idle false → s.ports.instr = ⟨w, false⟩ :: rest → s.ports.repReady = true →
    u.phase = .report false →
    ((∃ i, decodeWord w = .ok i ∧
        exec i { s with phase := .execute w, ports := { s.ports with instr := rest } } = .next u) ∨
     (illegalWord w ∧ u = abandoned { s with ports := { s.ports with instr := rest } } 1)) →
    ∃ r, Host.Core.run core 3 s =
        .next { u with flags := Flags.clear, phase := .idle false
                       ports := { u.ports with reports := s.ports.reports ++ [r] } } ∧
      r.pc = s.pc + 1 ∧ r.regs = u.regs ∧ r.flags = flagBits u.flags ∧ r.err = u.err ∧ r.final = false ∧
      ∀ a : Fin 64, r.mem[a] = Memory.read u.mem a

/-- The instruction cycle (R79, R115, R117) of an IN and of an OUT whose wait the host serves at once: four steps from
Idle (a step is a phase: log 2). The word is accepted, executed, its one input or output transfer made, and its report
sent with the flags it left, after which the flags are clear and the machine is idle. -/
def Obligations.PortInstructionCycle : Prop :=
  ∀ (s : State) (w : Word) (rest : List InstrTransfer),
    s.ports.rst = false → s.phase = .idle false → s.ports.instr = ⟨w, false⟩ :: rest → s.ports.repReady = true →
    (∀ n v more, decodeWord w = .ok (.inp (.reg n)) → s.ports.input = v :: more →
      ∃ r, Host.Core.run core 4 s =
          .next { s with regs := s.regs.set n.val (policy v.toInt).1, flags := Flags.clear, err := 0, pc := s.pc + 1
                         ports := { s.ports with instr := rest, input := more
                                                 reports := s.ports.reports ++ [r] } } ∧
        r.pc = s.pc + 1 ∧ r.regs = s.regs.set n.val (policy v.toInt).1 ∧ r.flags = flagBits (policy v.toInt).2 ∧
        r.err = 0 ∧ r.final = false ∧ ∀ a : Fin 64, r.mem[a] = Memory.read s.mem a) ∧
    (∀ src v, decodeWord w = .ok (.out src) → HasValue s src v → s.ports.outReady = true →
      ∃ (r : Report) (x : Half), (x.toNat : Int) = v % 65536 ∧ Host.Core.run core 4 s =
          .next { s with flags := Flags.clear, err := 0, pc := s.pc + 1
                         ports := { s.ports with instr := rest, output := s.ports.output ++ [x]
                                                 reports := s.ports.reports ++ [r] } } ∧
        r.pc = s.pc + 1 ∧ r.regs = s.regs ∧ r.flags = flagBits s.flags ∧ r.err = 0 ∧ r.final = false ∧
        ∀ a : Fin 64, r.mem[a] = Memory.read s.mem a)

/-- A `prog_end` transfer brings the final report and the end, in which no word is accepted until reset (R143). The model's
choice, and no words of R143: that `ERR` keeps its value into Ended and the flags are cleared with the final report
(log 8), and that acceptance and report are one step each (log 2). -/
def Obligations.ProgEndSendsFinalReport : Prop :=
  (∀ (s : State) (w : Word) (rest : List InstrTransfer),
    s.ports.rst = false → s.phase = .idle false → s.ports.instr = ⟨w, true⟩ :: rest → s.ports.repReady = true →
    ∃ r, Host.Core.run core 2 s =
        .next { s with flags := Flags.clear, phase := .ended
                       ports := { s.ports with instr := rest, reports := s.ports.reports ++ [r] } } ∧
      r.final = true ∧ r.pc = s.pc ∧ r.regs = s.regs ∧ r.flags = 0 ∧ r.err = 0 ∧
      ∀ a : Fin 64, r.mem[a] = Memory.read s.mem a) ∧
  (∀ s : State, s.phase = .ended → s.ports.rst = false → step s = .next s ∧ instrReady s = false)

/-- R82: when the per-instruction report is accepted the flags become false, and it is the last step of the cycle; so no
instruction begins with a flag set. -/
def Obligations.FlagsClearedAfterReport : Prop :=
  (∀ s : State, s.ports.rst = false → s.phase = .report false → s.ports.repReady = true →
    ∃ t, step s = .next t ∧ t.flags = { cf := false, of := false, uf := false, zf := false } ∧ t.phase = .idle false) ∧
  (∀ (s : State) (w : Word), Reachable s → s.phase = .execute w →
    s.flags = { cf := false, of := false, uf := false, zf := false })

/-- Each port is driven in its own phase only, and none during reset or in the first cycle after it (R10 to R13, R138). -/
def Obligations.PortsDrivenInTheirPhases : Prop :=
  ∀ s : State,
    (s.ports.rst = true ∨ s.phase = .idle true → DrivesNothing s) ∧
    (s.ports.rst = false →
      (instrReady s = true ↔ s.phase = .idle false) ∧
      (inReady s = true ↔ ∃ n, s.phase = .waitIn n) ∧
      (∀ v, outValid s = some v ↔ s.phase = .waitOut v) ∧
      (∀ r, repValid s = some r ↔ ∃ f, s.phase = .report f ∧ r = reportOf f s))

/-- A step makes at most one port transfer, and each kind only from its own phase to the next one of the cycle: the word
from Idle, the input from WaitIn, the output from WaitOut, then the report (R147, an order the spec marks as derived).
That a step is one phase, and so makes one transfer, is the model's reading (log 2). -/
def Obligations.OneTransferPerStep : Prop :=
  ∀ s t : State, s.ports.rst = false → step s = .next t →
    t.ports = s.ports ∨
    (s.phase = .idle false ∧ (∃ w, t.phase = .execute w ∨ t.phase = .report true) ∧
      ∃ x rest, s.ports.instr = x :: rest ∧ t.ports = { s.ports with instr := rest }) ∨
    ((∃ n, s.phase = .waitIn n) ∧ t.phase = .report false ∧
      ∃ v rest, s.ports.input = v :: rest ∧ t.ports = { s.ports with input := rest }) ∨
    (∃ v, s.phase = .waitOut v ∧ t.phase = .report false ∧ s.ports.outReady = true ∧
      t.ports = { s.ports with output := s.ports.output ++ [v] }) ∨
    (∃ f, s.phase = .report f ∧ (t.phase = .idle false ∨ t.phase = .ended) ∧ s.ports.repReady = true ∧
      t.ports = { s.ports with reports := s.ports.reports ++ [reportOf f s] })

/-- `PC` advances by one, modulo 65536, at the end of every instruction and at no other step (R30), and from every state in
which the reports are in order, a step, a reset and a host move leave them in order: the k-th per-instruction report
shows k modulo 65536 (R30), a final report is the last one and shows the number of instructions, with flags and `ERR` 0
(R143, R144). So it is of every reachable state. The record of reports, which a reset empties, is the model's own
(log 1, log 5), and so is the phase that a step takes (log 2). -/
def Obligations.PcCountsInstructions : Prop :=
  (∀ s t : State, s.ports.rst = false → step s = .next t →
    t.pc = s.pc + if t.phase = .report false ∧ s.phase ≠ .report false then 1 else 0) ∧
  (∀ s t : State, ReportsInOrder s → step s = .next t → ReportsInOrder t) ∧
  (∀ (m : HostMove) (s : State), ReportsInOrder s → ReportsInOrder (applyMove m s)) ∧
  (∀ s : State, Reachable s → ReportsInOrder s)

/-- Every step from every state keeps the invariant: canonical memory inside [0,63], `ERR` never 7, only legal flag
combinations, and flags set only while their own report waits (R39, R40, R34, R35). -/
def Obligations.StepKeepsInvariant : Prop := ∀ s t : State, StateInv s → step s = .next t → StateInv t

/-- No move of the host changes anything but the ports, so none breaks the invariant (R14). -/
def Obligations.HostMovesKeepInvariant : Prop :=
  ∀ (m : HostMove) (s : State), StateInv s → StateInv (applyMove m s) ∧
    applyMove m s = { s with ports := (applyMove m s).ports }

/-- Every report of every run shows one of the four legal flag patterns and an `ERR` code other than 7 (R35, R39; the spec
marks R35 as derived). -/
def Obligations.ReportsShowLegalFlags : Prop :=
  ∀ s : State, Reachable s → ∀ r ∈ s.ports.reports, legalReport r

/-- The canonical form is canonical: memories that read the same everywhere are the same list (the form is the model's
own, log 4). -/
def Obligations.EqualCellsAreEqualMemories : Prop :=
  ∀ m m' : List Host.Cell, Memory.wf m = true → Memory.wf m' = true →
    (∀ a, Memory.read m a = Memory.read m' a) → m = m'
end

