-- ==== Sys2Proof/Laws/State.lean ====
section
/-! SUPPORT. What each update of State does to each field, by rfl, so that no later proof unfolds a record update. -/

namespace Sys2Proof.Machine

/-! ### `writeReg` -/
@[simp] theorem writeReg_mem (n : Reg) (v : Byte) (s : State) : (writeReg n v s).mem = s.mem := rfl
@[simp] theorem writeReg_flags (n : Reg) (v : Byte) (s : State) : (writeReg n v s).flags = s.flags := rfl
@[simp] theorem writeReg_pc (n : Reg) (v : Byte) (s : State) : (writeReg n v s).pc = s.pc := rfl
@[simp] theorem writeReg_err (n : Reg) (v : Byte) (s : State) : (writeReg n v s).err = s.err := rfl
@[simp] theorem writeReg_phase (n : Reg) (v : Byte) (s : State) : (writeReg n v s).phase = s.phase := rfl
@[simp] theorem writeReg_ports (n : Reg) (v : Byte) (s : State) : (writeReg n v s).ports = s.ports := rfl

/-! ### `writeResult` -/
@[simp] theorem writeResult_regs (n : Reg) (t : Int) (s : State) :
    (writeResult n t s).regs = s.regs.set n.val (policy t).1 := rfl
@[simp] theorem writeResult_mem (n : Reg) (t : Int) (s : State) : (writeResult n t s).mem = s.mem := rfl
@[simp] theorem writeResult_flags (n : Reg) (t : Int) (s : State) : (writeResult n t s).flags = (policy t).2 := rfl
@[simp] theorem writeResult_pc (n : Reg) (t : Int) (s : State) : (writeResult n t s).pc = s.pc := rfl
@[simp] theorem writeResult_err (n : Reg) (t : Int) (s : State) : (writeResult n t s).err = s.err := rfl
@[simp] theorem writeResult_phase (n : Reg) (t : Int) (s : State) : (writeResult n t s).phase = s.phase := rfl
@[simp] theorem writeResult_ports (n : Reg) (t : Int) (s : State) : (writeResult n t s).ports = s.ports := rfl

/-! ### `endInstruction`, and so `complete` and `takeError` -/
@[simp] theorem endInstruction_regs (c : BitVec 3) (s : State) : (endInstruction c s).regs = s.regs := rfl
@[simp] theorem endInstruction_mem (c : BitVec 3) (s : State) : (endInstruction c s).mem = s.mem := rfl
@[simp] theorem endInstruction_flags (c : BitVec 3) (s : State) : (endInstruction c s).flags = s.flags := rfl
@[simp] theorem endInstruction_pc (c : BitVec 3) (s : State) : (endInstruction c s).pc = s.pc + 1 := rfl
@[simp] theorem endInstruction_err (c : BitVec 3) (s : State) : (endInstruction c s).err = c := rfl
@[simp] theorem endInstruction_phase (c : BitVec 3) (s : State) : (endInstruction c s).phase = .report false := rfl
@[simp] theorem endInstruction_ports (c : BitVec 3) (s : State) : (endInstruction c s).ports = s.ports := rfl

theorem complete_eq (s : State) : complete s = endInstruction 0 s := rfl
theorem takeError_eq (e : ErrorCause) (s : State) : takeError e s = endInstruction (errorCode e) s := rfl
theorem takeError_eq_abandoned (e : ErrorCause) (s : State) : takeError e s = abandoned s (errorCode e) := rfl
theorem complete_writeResult (n : Reg) (t : Int) (s : State) :
    complete (writeResult n t s) = committedResult s n t := rfl

/-! ### `requestInput` and `presentOutput` -/
@[simp] theorem requestInput_regs (n : Reg) (s : State) : (requestInput n s).regs = s.regs := rfl
@[simp] theorem requestInput_mem (n : Reg) (s : State) : (requestInput n s).mem = s.mem := rfl
@[simp] theorem requestInput_flags (n : Reg) (s : State) : (requestInput n s).flags = s.flags := rfl
@[simp] theorem requestInput_pc (n : Reg) (s : State) : (requestInput n s).pc = s.pc := rfl
@[simp] theorem requestInput_err (n : Reg) (s : State) : (requestInput n s).err = s.err := rfl
@[simp] theorem requestInput_phase (n : Reg) (s : State) : (requestInput n s).phase = .waitIn n := rfl
@[simp] theorem requestInput_ports (n : Reg) (s : State) : (requestInput n s).ports = s.ports := rfl
@[simp] theorem presentOutput_regs (v : Half) (s : State) : (presentOutput v s).regs = s.regs := rfl
@[simp] theorem presentOutput_mem (v : Half) (s : State) : (presentOutput v s).mem = s.mem := rfl
@[simp] theorem presentOutput_flags (v : Half) (s : State) : (presentOutput v s).flags = s.flags := rfl
@[simp] theorem presentOutput_pc (v : Half) (s : State) : (presentOutput v s).pc = s.pc := rfl
@[simp] theorem presentOutput_err (v : Half) (s : State) : (presentOutput v s).err = s.err := rfl
@[simp] theorem presentOutput_phase (v : Half) (s : State) : (presentOutput v s).phase = .waitOut v := rfl
@[simp] theorem presentOutput_ports (v : Half) (s : State) : (presentOutput v s).ports = s.ports := rfl

/-! ### `applyMove` -/
@[simp] theorem applyMove_regs (m : HostMove) (s : State) : (applyMove m s).regs = s.regs := rfl
@[simp] theorem applyMove_mem (m : HostMove) (s : State) : (applyMove m s).mem = s.mem := rfl
@[simp] theorem applyMove_flags (m : HostMove) (s : State) : (applyMove m s).flags = s.flags := rfl
@[simp] theorem applyMove_pc (m : HostMove) (s : State) : (applyMove m s).pc = s.pc := rfl
@[simp] theorem applyMove_err (m : HostMove) (s : State) : (applyMove m s).err = s.err := rfl
@[simp] theorem applyMove_phase (m : HostMove) (s : State) : (applyMove m s).phase = s.phase := rfl
@[simp] theorem applyMove_ports (m : HostMove) (s : State) : (applyMove m s).ports = movePorts s.ports m := rfl
@[simp] theorem movePorts_reports (p : Ports) (m : HostMove) : (movePorts p m).reports = p.reports := by
  cases m <;> rfl
@[simp] theorem movePorts_output (p : Ports) (m : HostMove) : (movePorts p m).output = p.output := by
  cases m <;> rfl

/-! ### `applyReset` -/
@[simp] theorem applyReset_regs (s : State) : (applyReset s).regs = State.reset.regs := rfl
@[simp] theorem applyReset_mem (s : State) : (applyReset s).mem = [] := rfl
@[simp] theorem applyReset_flags (s : State) : (applyReset s).flags = Flags.clear := rfl
@[simp] theorem applyReset_pc (s : State) : (applyReset s).pc = 0 := rfl
@[simp] theorem applyReset_err (s : State) : (applyReset s).err = 0 := rfl
@[simp] theorem applyReset_phase (s : State) : (applyReset s).phase = .idle true := rfl
@[simp] theorem applyReset_reports (s : State) : (applyReset s).ports.reports = [] := rfl
@[simp] theorem applyReset_output (s : State) : (applyReset s).ports.output = [] := rfl

/-! ### `endResetCycle` -/
@[simp] theorem endResetCycle_regs (s : State) : (endResetCycle s).regs = s.regs := rfl
@[simp] theorem endResetCycle_mem (s : State) : (endResetCycle s).mem = s.mem := rfl
@[simp] theorem endResetCycle_flags (s : State) : (endResetCycle s).flags = s.flags := rfl
@[simp] theorem endResetCycle_pc (s : State) : (endResetCycle s).pc = s.pc := rfl
@[simp] theorem endResetCycle_err (s : State) : (endResetCycle s).err = s.err := rfl
@[simp] theorem endResetCycle_phase (s : State) : (endResetCycle s).phase = .idle false := rfl
@[simp] theorem endResetCycle_ports (s : State) : (endResetCycle s).ports = s.ports := rfl

/-! ### Reading a register after a write -/
@[simp] theorem readReg_writeReg_same (n : Reg) (v : Byte) (s : State) : readReg (writeReg n v s) n = v := by
  simp [readReg, writeReg]

theorem readReg_writeReg_ne {n m : Reg} (v : Byte) (s : State) (h : m ≠ n) :
    readReg (writeReg n v s) m = readReg s m := by
  have hv : n.val ≠ m.val := fun e => h (Fin.ext e.symm)
  simp [readReg, writeReg, hv]

@[simp] theorem readReg_endInstruction (c : BitVec 3) (s : State) (n : Reg) :
    readReg (endInstruction c s) n = readReg s n := rfl

@[simp] theorem readReg_writeResult_same (n : Reg) (t : Int) (s : State) :
    readReg (writeResult n t s) n = (policy t).1 := by
  simp [readReg]

theorem readReg_writeResult_ne {n m : Reg} (t : Int) (s : State) (h : m ≠ n) :
    readReg (writeResult n t s) m = readReg s m := readReg_writeReg_ne _ _ h

@[simp] theorem readReg_reset (n : Reg) : readReg State.reset n = 0 := by simp [readReg, State.reset]

end Sys2Proof.Machine
end

