-- ==== Sys2Proof/Laws/Decode.lean ====
section
/-! SUPPORT. The fields of a packed word, the word its fields pack to, and the register field's round trip. -/

namespace Sys2Proof

section
variable (op : BitVec 4) (m : BitVec 2) (g r : BitVec 3) (z : BitVec 4) (v : Half)

@[simp] theorem opOf_packFields : opOf (packFields op m g r z v) = op := by
  ext i; simp [opOf, packFields]; grind
@[simp] theorem smodeOf_packFields : smodeOf (packFields op m g r z v) = m := by
  ext i; simp [smodeOf, packFields]; grind
@[simp] theorem sregOf_packFields : sregOf (packFields op m g r z v) = g := by
  ext i; simp [sregOf, packFields]; grind
@[simp] theorem rOf_packFields : rOf (packFields op m g r z v) = r := by
  ext i; simp [rOf, packFields]; grind
@[simp] theorem sbzOf_packFields : sbzOf (packFields op m g r z v) = z := by
  ext i; simp [sbzOf, packFields]; grind
@[simp] theorem immOf_packFields : immOf (packFields op m g r z v) = v := by
  ext i; simp [immOf, packFields]; grind

end

/-- The fields lose no bit of the word. -/
theorem packFields_fields (w : Word) :
    packFields (opOf w) (smodeOf w) (sregOf w) (rOf w) (sbzOf w) (immOf w) = w := by
  ext i hi
  simp [packFields, opOf, smodeOf, sregOf, rOf, sbzOf, immOf]
  grind

@[simp] theorem decodeReg_encodeReg (r : RegField) : decodeReg (encodeReg r) = r := by
  cases r with
  | invalid => rfl
  | reg n => revert n; decide

@[simp] theorem encodeReg_decodeReg (f : BitVec 3) : encodeReg (decodeReg f) = f := by
  revert f; decide

/-- The S operand's bits decode to it, whatever they are. -/
@[simp] theorem decodeSource_bits (src : Source) : decodeSource src.smodeBits src.sregBits src.immBits = .ok src := by
  cases src <;> simp [decodeSource, Source.smodeBits, Source.sregBits, Source.immBits]

end Sys2Proof
end

