-- ==== Sys2Proof/Laws/Memory.lean ====
section
/-! SUPPORT. The laws of the memory list: reading after a write, and that a write keeps the canonical form. -/

namespace Sys2Proof.Machine

@[simp] theorem read_nil (a : Nat) : Memory.read [] a = Config.memReset := rfl

theorem read_cons (k : Nat) (b : Byte) (m : List Host.Cell) (a : Nat) :
    Memory.read ((k, b) :: m) a = if k = a then b else Memory.read m a := rfl

/-- A longer lower bound is a weaker claim. -/
theorem wfFrom_mono {lo hi : Nat} (h : lo ≤ hi) : ∀ {m : List Host.Cell}, Memory.wfFrom hi m = true →
    Memory.wfFrom lo m = true
  | [], _ => rfl
  | (k, b) :: m, hm => by
    simp only [Memory.wfFrom, Bool.and_eq_true, decide_eq_true_eq] at hm ⊢
    exact ⟨⟨⟨by omega, hm.1.1.2⟩, hm.1.2⟩, hm.2⟩

/-- A cell below the lower bound is not listed. -/
theorem read_below {m : List Host.Cell} : ∀ {lo a : Nat}, Memory.wfFrom lo m = true → a < lo →
    Memory.read m a = Config.memReset := by
  induction m with
  | nil => intro lo a _ _; rfl
  | cons c m ih =>
    obtain ⟨k, b⟩ := c
    intro lo a hm ha
    simp only [Memory.wfFrom, Bool.and_eq_true, decide_eq_true_eq] at hm
    have hk : k ≠ a := by omega
    rw [read_cons, if_neg hk]
    exact ih hm.2 (by omega)

/-- Putting a cell in front of cells that lie above it. -/
theorem read_consCell {m : List Host.Cell} {a : Nat} (v : Byte) (hm : Memory.wfFrom (a + 1) m = true) (b : Nat) :
    Memory.read (Memory.consCell a v m) b = if b = a then v else Memory.read m b := by
  unfold Memory.consCell
  split
  · next hv =>
    split
    · next hb => subst hb; rw [read_below hm (by omega), hv]
    · rfl
  · rw [read_cons]
    by_cases hb : a = b
    · subst hb; simp
    · simp [hb, Ne.symm hb]

theorem wfFrom_consCell {m : List Host.Cell} {lo a : Nat} (v : Byte) (hlo : lo ≤ a) (ha : a < Config.memSize)
    (hm : Memory.wfFrom (a + 1) m = true) : Memory.wfFrom lo (Memory.consCell a v m) = true := by
  unfold Memory.consCell
  split
  · exact wfFrom_mono (by omega) hm
  · next hv => simp [Memory.wfFrom, hlo, ha, hv, hm]

/-- Reading after a write: the written cell holds the value, every other cell is as before. -/
theorem read_write {m : List Host.Cell} : ∀ {lo : Nat}, Memory.wfFrom lo m = true → ∀ (a : Nat) (v : Byte) (b : Nat),
    Memory.read (Memory.write m a v) b = if b = a then v else Memory.read m b := by
  induction m with
  | nil => intro lo _ a v b; exact read_consCell v rfl b
  | cons c m ih =>
    obtain ⟨k, w⟩ := c
    intro lo hm a v b
    have hm' := hm
    simp only [Memory.wfFrom, Bool.and_eq_true, decide_eq_true_eq] at hm'
    unfold Memory.write
    split
    · next hak =>
      refine read_consCell v ?_ b
      simp only [Memory.wfFrom, Bool.and_eq_true, decide_eq_true_eq]
      exact ⟨⟨⟨by omega, hm'.1.1.2⟩, hm'.1.2⟩, hm'.2⟩
    · split
      · next hak =>
        subst hak
        rw [read_consCell v hm'.2 b, read_cons]
        by_cases hb : b = a
        · simp [hb]
        · simp [hb, Ne.symm hb]
      · next hlt hne =>
        rw [read_cons, ih hm'.2 a v b, read_cons]
        by_cases hb : k = b
        · subst hb; simp [Ne.symm hne]
        · simp [hb]

/-- A write inside the memory keeps the canonical form. -/
theorem wfFrom_write {m : List Host.Cell} : ∀ {lo : Nat}, Memory.wfFrom lo m = true → ∀ {a : Nat} (v : Byte), lo ≤ a →
    a < Config.memSize → Memory.wfFrom lo (Memory.write m a v) = true := by
  induction m with
  | nil => intro lo _ a v hlo ha; exact wfFrom_consCell v hlo ha rfl
  | cons c m ih =>
    obtain ⟨k, w⟩ := c
    intro lo hm a v hlo ha
    have hm' := hm
    simp only [Memory.wfFrom, Bool.and_eq_true, decide_eq_true_eq] at hm'
    unfold Memory.write
    split
    · refine wfFrom_consCell v hlo ha ?_
      simp only [Memory.wfFrom, Bool.and_eq_true, decide_eq_true_eq]
      exact ⟨⟨⟨by omega, hm'.1.1.2⟩, hm'.1.2⟩, hm'.2⟩
    · split
      · next hak => subst hak; exact wfFrom_consCell v hlo ha hm'.2
      · next hlt hne =>
        have := ih hm'.2 v (by omega : k + 1 ≤ a) ha
        simp only [Memory.wfFrom, Bool.and_eq_true, decide_eq_true_eq]
        exact ⟨⟨⟨hm'.1.1.1, hm'.1.1.2⟩, hm'.1.2⟩, this⟩

theorem wf_write {m : List Host.Cell} (hm : Memory.wf m = true) {a : Nat} (v : Byte) (ha : a < Config.memSize) :
    Memory.wf (Memory.write m a v) = true := wfFrom_write hm v (Nat.zero_le a) ha

theorem wf_reset : Memory.wf State.reset.mem = true := rfl

end Sys2Proof.Machine
end

