-- ==== Sys2Proof/Laws/Ops.lean ====
section
/-! SUPPORT. One specification lemma for each shared operation: the bounds check, the operand resolutions, the policy,
the shapes of the instruction families. Later proofs cite these and do not unfold the operations. -/

namespace Sys2Proof.Machine

/-! ### Policy (R87) -/

theorem policy_overflow {t : Int} (h : 255 < t) : policy t = (0, Flags.overflow) := by simp [policy, h]

theorem policy_underflow {t : Int} (h : t < 0) : policy t = (255, Flags.underflow) := by
  simp [policy, h, show ¬ 255 < t by omega]

theorem policy_zero : policy 0 = (0, Flags.zero) := by simp [policy]

theorem policy_inRange {t : Int} (h0 : 0 < t) (h1 : t ≤ 255) : policy t = (BitVec.ofInt 8 t, Flags.clear) := by
  simp [policy, show ¬ 255 < t by omega, show ¬ t < 0 by omega, show t ≠ 0 by omega]

/-- The policy on a byte's value: the byte itself, and `ZF` exactly for 0. -/
theorem policy_byte (b : Byte) :
    policy (b.toNat : Int) = (b, if b = 0 then Flags.zero else Flags.clear) := by
  have hb : b.toNat < 256 := b.isLt
  by_cases h : b = 0
  · subst h; simp [policy]
  · have hpos : 0 < b.toNat := by
      rcases Nat.eq_zero_or_pos b.toNat with h0 | h0
      · exact absurd (BitVec.eq_of_toNat_eq (by simpa using h0)) h
      · exact h0
    rw [policy_inRange (by omega) (by omega), if_neg h]
    simp

/-- Whatever the result, the policy's flags are one of the four legal combinations (R35). -/
theorem policy_legal (t : Int) : legalFlags (policy t).2 := by
  unfold policy legalFlags
  split
  · simp
  · split
    · simp
    · split <;> simp

/-! ### Bounds (R48, R49, R50) -/

theorem cellOf_ok {a : Int} {c : Nat} : cellOf a = .ok c ↔ 0 ≤ a ∧ a ≤ 63 ∧ c = a.toNat := by
  unfold cellOf Config.memSize
  split
  · next h => simp only [Except.ok.injEq]; omega
  · next h => simp only [reduceCtorEq, false_iff]; omega

theorem cellOf_inside {a : Int} (h0 : 0 ≤ a) (h1 : a ≤ 63) : cellOf a = .ok a.toNat :=
  cellOf_ok.mpr ⟨h0, h1, rfl⟩

theorem cellOf_outside {a : Int} (h : a < 0 ∨ 63 < a) : cellOf a = .error .outOfBounds := by
  unfold cellOf Config.memSize
  rw [if_neg (by omega)]

theorem memRead_inside {s : State} {a : Int} (h0 : 0 ≤ a) (h1 : a ≤ 63) :
    memRead s a = .ok (Memory.read s.mem a.toNat) := by simp [memRead, cellOf_inside h0 h1]

theorem memRead_outside {s : State} {a : Int} (h : a < 0 ∨ 63 < a) : memRead s a = .error .outOfBounds := by
  simp [memRead, cellOf_outside h]

theorem memWrite_inside {s : State} {a : Int} (v : Byte) (h0 : 0 ≤ a) (h1 : a ≤ 63) :
    memWrite a v s = .ok { s with mem := Memory.write s.mem a.toNat v } := by simp [memWrite, cellOf_inside h0 h1]

theorem memWrite_outside {s : State} {a : Int} (v : Byte) (h : a < 0 ∨ 63 < a) :
    memWrite a v s = .error .outOfBounds := by simp [memWrite, cellOf_outside h]

/-- All a memory write can do. -/
theorem memWrite_cases (a : Int) (v : Byte) (s : State) :
    (0 ≤ a ∧ a ≤ 63 ∧ memWrite a v s = .ok { s with mem := Memory.write s.mem a.toNat v }) ∨
    ((a < 0 ∨ 63 < a) ∧ memWrite a v s = .error .outOfBounds) := by
  by_cases h : 0 ≤ a ∧ a ≤ 63
  · exact .inl ⟨h.1, h.2, memWrite_inside v h.1 h.2⟩
  · exact .inr ⟨by omega, memWrite_outside v (by omega)⟩

/-! ### Operands (R83 to R85) -/

@[simp] theorem checkReg_reg (n : Reg) (e : ErrorCause) : checkReg (.reg n) e = .ok n := rfl
@[simp] theorem checkReg_invalid (e : ErrorCause) : checkReg .invalid e = .error e := rfl

/-- `ResolveValue` answers exactly the operand's value (R84). -/
theorem resolveValue_ok {s : State} {src : Source} {v : Int} : resolveValue s src = .ok v ↔ HasValue s src v := by
  constructor
  · intro h
    cases src with
    | reg r =>
      cases r with
      | invalid => simp [resolveValue] at h
      | reg n => simp only [resolveValue, checkReg_reg, Except.ok.injEq] at h; subst h; exact .reg n
    | ind r =>
      cases r with
      | invalid => simp [resolveValue] at h
      | reg n =>
        by_cases hb : (readReg s n).toNat ≤ 63
        · simp only [resolveValue, checkReg_reg, memRead_inside (s := s) (a := regValue s n)
            (by simp [regValue]) (by simp only [regValue]; omega), Except.ok.injEq] at h
          subst h; exact .ind n hb
        · simp only [resolveValue, checkReg_reg, memRead_outside (s := s) (a := regValue s n)
            (by simp only [regValue]; omega), reduceCtorEq] at h
    | imm w => simp only [resolveValue, sext16, Except.ok.injEq] at h; subst h; exact .imm w
    | bad a b => simp [resolveValue] at h
  · intro h
    cases h with
    | reg n => rfl
    | ind n hb =>
      simp only [resolveValue, checkReg_reg, memRead_inside (s := s) (a := regValue s n)
        (by simp [regValue]) (by simp only [regValue]; omega)]
      simp [regValue]
    | imm w => rfl

/-- `ResolveValue` raises exactly the operand's error (R84). -/
theorem resolveValue_error {s : State} {src : Source} {e : ErrorCause} (h : ValueFails s src e) :
    resolveValue s src = .error e := by
  cases h with
  | reg => rfl
  | indReg => rfl
  | ind n hb =>
    simp only [resolveValue, checkReg_reg, memRead_outside (s := s) (a := regValue s n)
      (by simp only [regValue]; omega)]
  | bad a b => rfl

/-- A data operand either has a value or fails with a cause. -/
theorem value_or_fails (s : State) (src : Source) : (∃ v, HasValue s src v) ∨ ∃ e, ValueFails s src e := by
  cases src with
  | reg r =>
    cases r with
    | reg n => exact .inl ⟨_, .reg n⟩
    | invalid => exact .inr ⟨_, .reg⟩
  | ind r =>
    cases r with
    | reg n =>
      rcases Nat.lt_or_ge 63 (readReg s n).toNat with h | h
      · exact .inr ⟨_, .ind n h⟩
      · exact .inl ⟨_, .ind n h⟩
    | invalid => exact .inr ⟨_, .indReg⟩
  | imm v => exact .inl ⟨_, .imm v⟩
  | bad a b => exact .inr ⟨_, .bad a b⟩

/-- `ResolveAddress` answers exactly the operand's address (R85). -/
theorem resolveAddress_ok {s : State} {src : Source} {a : Int} : resolveAddress s src = .ok a ↔ HasAddress s src a := by
  constructor
  · intro h
    cases src with
    | reg r => simp [resolveAddress] at h
    | ind r =>
      cases r with
      | invalid => simp [resolveAddress] at h
      | reg n => simp only [resolveAddress, checkReg_reg, Except.ok.injEq] at h; subst h; exact .ind n
    | imm w => simp only [resolveAddress, sext16, Except.ok.injEq] at h; subst h; exact .imm w
    | bad a b => simp [resolveAddress] at h
  · intro h
    cases h with
    | ind n => rfl
    | imm w => rfl

/-- `ResolveAddress` raises exactly the operand's error (R85). -/
theorem resolveAddress_error {s : State} {src : Source} {e : ErrorCause} (h : AddressFails s src e) :
    resolveAddress s src = .error e := by
  cases h <;> rfl

/-- An address operand either is an address or fails with a cause. -/
theorem address_or_fails (s : State) (src : Source) : (∃ a, HasAddress s src a) ∨ ∃ e, AddressFails s src e := by
  cases src with
  | reg r => exact .inr ⟨_, .reg r⟩
  | ind r =>
    cases r with
    | reg n => exact .inl ⟨_, .ind n⟩
    | invalid => exact .inr ⟨_, .indReg⟩
  | imm v => exact .inl ⟨_, .imm v⟩
  | bad a b => exact .inr ⟨_, .bad a b⟩

/-! ### The families' shapes: each answers a result committed through the policy, or an error -/

theorem sourceToReg_cases (f : Int → Int → Except ErrorCause Int) (src : Source) (dst : RegField) (s : State) :
    (∃ n t, dst = .reg n ∧ sourceToReg f src dst s = .ok (writeResult n t s)) ∨
    ∃ e, sourceToReg f src dst s = .error e := by
  unfold sourceToReg
  cases resolveValue s src with
  | error e => exact .inr ⟨e, rfl⟩
  | ok v =>
    cases dst with
    | invalid => exact .inr ⟨.invalidDestination, rfl⟩
    | reg n =>
      simp only [checkReg_reg]
      cases f (regValue s n) v with
      | error e => exact .inr ⟨e, rfl⟩
      | ok t => exact .inl ⟨n, t, rfl, rfl⟩

theorem updateReg_cases (f : Int → Int) (dst : RegField) (s : State) :
    (∃ n t, dst = .reg n ∧ updateReg f dst s = .ok (writeResult n t s)) ∨ ∃ e, updateReg f dst s = .error e := by
  cases dst with
  | invalid => exact .inr ⟨_, rfl⟩
  | reg n => exact .inl ⟨n, _, rfl, rfl⟩

theorem moveBits_cases (f : Byte → Nat → Nat) (dst : RegField) (amount : Source) (s : State) :
    (∃ n t, dst = .reg n ∧ moveBits f dst amount s = .ok (writeResult n t s)) ∨
    ∃ e, moveBits f dst amount s = .error e := by
  unfold moveBits
  cases dst with
  | invalid => exact .inr ⟨_, rfl⟩
  | reg n =>
    simp only [checkReg_reg]
    cases resolveValue s amount with
    | error e => exact .inr ⟨e, rfl⟩
    | ok k =>
      by_cases hk : k < 0
      · exact .inr ⟨.invalidOperand, by simp [hk]⟩
      · exact .inl ⟨n, _, rfl, by simp [hk]; rfl⟩

theorem storeReg_cases (src : RegField) (addr : Source) (s : State) :
    (∃ n c, src = .reg n ∧ c < Config.memSize ∧ resolveAddress s addr = .ok (c : Int) ∧
      storeReg src addr s = .ok { s with mem := Memory.write s.mem c (readReg s n) }) ∨
    ∃ e, storeReg src addr s = .error e := by
  unfold storeReg
  cases src with
  | invalid => exact .inr ⟨_, rfl⟩
  | reg n =>
    simp only [checkReg_reg]
    cases resolveAddress s addr with
    | error e => exact .inr ⟨e, rfl⟩
    | ok a =>
      rcases memWrite_cases a (readReg s n) s with ⟨h0, h1, h⟩ | ⟨_, h⟩
      · refine .inl ⟨n, a.toNat, rfl, by simp only [Config.memSize]; omega, ?_, h⟩
        rw [Int.toNat_of_nonneg h0]
      · exact .inr ⟨_, h⟩

theorem loadReg_cases (dst : RegField) (addr : Source) (s : State) :
    (∃ n b, dst = .reg n ∧ loadReg dst addr s = .ok (writeReg n b s)) ∨ ∃ e, loadReg dst addr s = .error e := by
  unfold loadReg
  cases dst with
  | invalid => exact .inr ⟨_, rfl⟩
  | reg n =>
    simp only [checkReg_reg]
    cases resolveAddress s addr with
    | error e => exact .inr ⟨e, rfl⟩
    | ok a =>
      simp only
      cases memRead s a with
      | error e => exact .inr ⟨e, rfl⟩
      | ok b => exact .inl ⟨n, b, rfl, rfl⟩

end Sys2Proof.Machine
end

