-- ==== Sys2Proof/Laws/Exec.lean ====
section
/-! SUPPORT. Everything an instruction can do, said once: `exec` always answers a next state, and that state is one of
the effects below. -/

namespace Sys2Proof.Machine

/-- The effects of an instruction `i` on `s`. -/
inductive Effect (i : Instr) (s : State) : State → Prop
  /-- abandoned with an error (R126) -/
  | error (e : ErrorCause) : Effect i s (takeError e s)
  /-- a result committed through the policy (R89) -/
  | result (n : Reg) (t : Int) (hd : destination i = some n) (hp : appliesPolicy i = true) :
      Effect i s (complete (writeResult n t s))
  /-- LOAD: a byte into a register, no flag (R120) -/
  | loaded (dst : RegField) (addr : Source) (n : Reg) (b : Byte) (hi : i = .load dst addr) (hd : dst = .reg n) :
      Effect i s (complete (writeReg n b s))
  /-- STORE: a register into a cell (R119) -/
  | stored (src : RegField) (addr : Source) (n : Reg) (c : Nat) (hi : i = .store src addr) (hs : src = .reg n)
      (hc : c < Config.memSize) (ha : resolveAddress s addr = .ok (c : Int)) :
      Effect i s (complete { s with mem := Memory.write s.mem c (readReg s n) })
  /-- IN: a value is requested (R113) -/
  | requested (dst : RegField) (n : Reg) (hi : i = .inp dst) (hd : dst = .reg n) : Effect i s (requestInput n s)
  /-- OUT: the operand's value is presented (R116) -/
  | presented (src : Source) (v : Int) (hi : i = .out src) (hv : HasValue s src v) :
      Effect i s (presentOutput (BitVec.ofInt 16 v) s)

theorem settle_error (s : State) (e : ErrorCause) : settle s (.error e) = .next (takeError e s) := rfl
theorem settle_ok (s t : State) : settle s (.ok t) = .next (complete t) := rfl

theorem exec_of_result {i : Instr} {s : State} {r : Except ErrorCause State} {dst : RegField}
    (hr : (∃ n t, dst = .reg n ∧ r = .ok (writeResult n t s)) ∨ ∃ e, r = .error e)
    (hd : destination i = fieldReg dst) (hp : appliesPolicy i = true) :
    ∃ t, settle s r = .next t ∧ Effect i s t := by
  rcases hr with ⟨n, t, rfl, rfl⟩ | ⟨e, rfl⟩
  · exact ⟨_, rfl, .result n t hd hp⟩
  · exact ⟨_, rfl, .error e⟩

/-- `exec` answers a next state, and it is one of the effects. -/
theorem exec_effect (i : Instr) (s : State) : ∃ t, exec i s = .next t ∧ Effect i s t := by
  cases i with
  | mov src dst => exact exec_of_result (sourceToReg_cases _ src dst s) rfl rfl
  | add src dst => exact exec_of_result (sourceToReg_cases _ src dst s) rfl rfl
  | sub src dst => exact exec_of_result (sourceToReg_cases _ src dst s) rfl rfl
  | mul src dst => exact exec_of_result (sourceToReg_cases _ src dst s) rfl rfl
  | div src dst => exact exec_of_result (sourceToReg_cases _ src dst s) rfl rfl
  | inc dst => exact exec_of_result (updateReg_cases _ dst s) rfl rfl
  | dec dst => exact exec_of_result (updateReg_cases _ dst s) rfl rfl
  | rol dst amount => exact exec_of_result (moveBits_cases _ dst amount s) rfl rfl
  | ror dst amount => exact exec_of_result (moveBits_cases _ dst amount s) rfl rfl
  | shl dst amount => exact exec_of_result (moveBits_cases _ dst amount s) rfl rfl
  | shr dst amount => exact exec_of_result (moveBits_cases _ dst amount s) rfl rfl
  | inp dst =>
    cases dst with
    | invalid => exact ⟨_, rfl, .error .invalidDestination⟩
    | reg n => exact ⟨_, rfl, .requested _ n rfl rfl⟩
  | out src =>
    rcases value_or_fails s src with ⟨v, hv⟩ | ⟨e, he⟩
    · exact ⟨_, by simp only [exec, execOut, resolveValue_ok.mpr hv], .presented src v rfl hv⟩
    · exact ⟨_, by simp only [exec, execOut, resolveValue_error he], .error e⟩
  | store src addr =>
    rcases storeReg_cases src addr s with ⟨n, c, hs, hc, ha, h⟩ | ⟨e, h⟩
    · exact ⟨_, by simp only [exec, execStore, h, settle_ok], .stored src addr n c rfl hs hc ha⟩
    · exact ⟨_, by simp only [exec, execStore, h, settle_error], .error e⟩
  | load dst addr =>
    rcases loadReg_cases dst addr s with ⟨n, b, hd, h⟩ | ⟨e, h⟩
    · exact ⟨_, by simp only [exec, execLoad, h, settle_ok], .loaded dst addr n b rfl hd⟩
    · exact ⟨_, by simp only [exec, execLoad, h, settle_error], .error e⟩

/-- A next state of `exec` is one of the effects. -/
theorem effect_of_exec {i : Instr} {s t : State} (h : exec i s = .next t) : Effect i s t := by
  obtain ⟨t', h', he⟩ := exec_effect i s
  rw [h] at h'
  cases h'
  exact he

end Sys2Proof.Machine
end

