-- ==== Sys2Proof/Laws/PerInstr.lean ====
section
/-! SUPPORT. Statements about every instruction as syntax, one lemma per constructor. -/

namespace Sys2Proof.Laws.EncodedFields

/-- The word of an instruction has its opcode in bits 31:28 (R66), its reserved bits zero (R68), and no field set that
its form does not use (R67): it is no illegal word (R69). -/
def Statement (i : Instr) : Prop :=
  opOf (encode i) = i.opBits ∧ sbzOf (encode i) = 0 ∧ ¬ Machine.illegalWord (encode i)

/-- The fields of a word with an S operand keep the must-be-zero rule. -/
theorem packSourceReg_legal (op : BitVec 4) (src : Source) (r : RegField) (h0 : op ≠ 0#4)
    (h6 : op ≠ 6#4 ∧ op ≠ 7#4 ∧ op ≠ 12#4 ∧ op ≠ 13#4) : ¬ Machine.illegalWord (packSourceReg op src r) := by
  cases src <;>
    simp [Machine.illegalWord, Machine.unusedFieldSet, packSourceReg, Source.smodeBits, Source.sregBits,
      Source.immBits, h0, h6]

theorem packReg_legal (op : BitVec 4) (r : RegField) (h : op = 6 ∨ op = 7 ∨ op = 12) :
    ¬ Machine.illegalWord (packReg op r) := by
  rcases h with rfl | rfl | rfl <;> simp [Machine.illegalWord, Machine.unusedFieldSet, packReg]

theorem packSource_legal (src : Source) : ¬ Machine.illegalWord (packSource 13 src) := by
  cases src <;>
    simp [Machine.illegalWord, Machine.unusedFieldSet, packSource, Source.smodeBits, Source.sregBits,
      Source.immBits]

theorem ofSourceReg (op : BitVec 4) (src : Source) (r : RegField) (h0 : op ≠ 0#4)
    (h6 : op ≠ 6#4 ∧ op ≠ 7#4 ∧ op ≠ 12#4 ∧ op ≠ 13#4) :
    opOf (packSourceReg op src r) = op ∧ sbzOf (packSourceReg op src r) = 0 ∧
      ¬ Machine.illegalWord (packSourceReg op src r) :=
  ⟨by simp [packSourceReg], by simp [packSourceReg], packSourceReg_legal op src r h0 h6⟩

theorem ofReg (op : BitVec 4) (r : RegField) (h : op = 6 ∨ op = 7 ∨ op = 12) :
    opOf (packReg op r) = op ∧ sbzOf (packReg op r) = 0 ∧ ¬ Machine.illegalWord (packReg op r) :=
  ⟨by simp [packReg], by simp [packReg], packReg_legal op r h⟩

theorem mov (src : Source) (dst : RegField) : Statement (.mov src dst) := ofSourceReg 1 src dst (by decide) (by decide)
theorem add (src : Source) (dst : RegField) : Statement (.add src dst) := ofSourceReg 2 src dst (by decide) (by decide)
theorem sub (src : Source) (dst : RegField) : Statement (.sub src dst) := ofSourceReg 3 src dst (by decide) (by decide)
theorem mul (src : Source) (dst : RegField) : Statement (.mul src dst) := ofSourceReg 4 src dst (by decide) (by decide)
theorem div (src : Source) (dst : RegField) : Statement (.div src dst) := ofSourceReg 5 src dst (by decide) (by decide)
theorem inc (dst : RegField) : Statement (.inc dst) := ofReg 6 dst (by decide)
theorem dec (dst : RegField) : Statement (.dec dst) := ofReg 7 dst (by decide)
theorem rol (dst : RegField) (amount : Source) : Statement (.rol dst amount) :=
  ofSourceReg 8 amount dst (by decide) (by decide)
theorem ror (dst : RegField) (amount : Source) : Statement (.ror dst amount) :=
  ofSourceReg 9 amount dst (by decide) (by decide)
theorem shl (dst : RegField) (amount : Source) : Statement (.shl dst amount) :=
  ofSourceReg 10 amount dst (by decide) (by decide)
theorem shr (dst : RegField) (amount : Source) : Statement (.shr dst amount) :=
  ofSourceReg 11 amount dst (by decide) (by decide)
theorem inp (dst : RegField) : Statement (.inp dst) := ofReg 12 dst (by decide)
theorem out (src : Source) : Statement (.out src) :=
  ⟨by simp [encode, packSource, Instr.opBits], by simp [encode, packSource], packSource_legal src⟩
theorem store (src : RegField) (addr : Source) : Statement (.store src addr) :=
  ofSourceReg 14 addr src (by decide) (by decide)
theorem load (dst : RegField) (addr : Source) : Statement (.load dst addr) :=
  ofSourceReg 15 addr dst (by decide) (by decide)

end Sys2Proof.Laws.EncodedFields
end

