-- ==== Sys2Proof/Laws/Step.lean ====
section
/-! SUPPORT. Everything a step can do, said once, and the induction over runs. -/

namespace Sys2Proof.Machine

/-- What a step does in each phase. -/
inductive StepEffect (s : State) : State → Prop
  | reset (hr : s.ports.rst = true) : StepEffect s (applyReset s)
  | resetCycle (hr : s.ports.rst = false) (hp : s.phase = .idle true) : StepEffect s (endResetCycle s)
  | accept (hr : s.ports.rst = false) (hp : s.phase = .idle false) : StepEffect s (acceptTransfer s)
  | abandon (w : Word) (r : DecodeReject) (hr : s.ports.rst = false) (hp : s.phase = .execute w)
      (hd : decodeWord w = .error r) : StepEffect s (takeError .invalidInstruction s)
  | run (w : Word) (i : Instr) (t : State) (hr : s.ports.rst = false) (hp : s.phase = .execute w)
      (hd : decodeWord w = .ok i) (he : Effect i s t) : StepEffect s t
  | input (n : Reg) (hr : s.ports.rst = false) (hp : s.phase = .waitIn n) : StepEffect s (awaitInput n s)
  | output (v : Half) (hr : s.ports.rst = false) (hp : s.phase = .waitOut v) : StepEffect s (awaitOutput v s)
  | report (final : Bool) (hr : s.ports.rst = false) (hp : s.phase = .report final) :
      StepEffect s (sendReport final s)
  | ended (hr : s.ports.rst = false) (hp : s.phase = .ended) : StepEffect s s

/-- A step always answers a next state, and it is one of the effects. -/
theorem step_effect (s : State) : ∃ t, step s = .next t ∧ StepEffect s t := by
  cases hr : s.ports.rst with
  | true => exact ⟨_, by simp [step, hr], .reset hr⟩
  | false =>
    cases hp : s.phase with
    | idle resetCycle =>
      cases resetCycle with
      | true => exact ⟨_, by simp [step, hr, hp], .resetCycle hr hp⟩
      | false => exact ⟨_, by simp [step, hr, hp], .accept hr hp⟩
    | execute w =>
      cases hd : decodeWord w with
      | error r => exact ⟨_, by simp [step, hr, hp, runWord, hd, abandonWord], .abandon w r hr hp hd⟩
      | ok i =>
        obtain ⟨t, ht, he⟩ := exec_effect i s
        exact ⟨t, by simp [step, hr, hp, runWord, hd, ht], .run w i t hr hp hd he⟩
    | waitIn n => exact ⟨_, by simp [step, hr, hp], .input n hr hp⟩
    | waitOut v => exact ⟨_, by simp [step, hr, hp], .output v hr hp⟩
    | report f => exact ⟨_, by simp [step, hr, hp], .report f hr hp⟩
    | ended => exact ⟨_, by simp [step, hr, hp], .ended hr hp⟩

/-- A next state of `step` is one of the effects. -/
theorem stepEffect_of_step {s t : State} (h : step s = .next t) : StepEffect s t := by
  obtain ⟨t', h', he⟩ := step_effect s
  rw [h] at h'
  cases h'
  exact he

/-- Awaiting input either stays in the wait or takes one value and ends the instruction. -/
theorem awaitInput_cases (n : Reg) (s : State) :
    (s.ports.input = [] ∧ awaitInput n s = s) ∨
    ∃ v rest, s.ports.input = v :: rest ∧
      awaitInput n s = complete (writeResult n (sext16 v) { s with ports := { s.ports with input := rest } }) := by
  unfold awaitInput
  cases s.ports.input with
  | nil => exact .inl ⟨rfl, rfl⟩
  | cons v rest => exact .inr ⟨v, rest, rfl, rfl⟩

/-- Awaiting output either stays in the wait or sends the value and ends the instruction. -/
theorem awaitOutput_cases (v : Half) (s : State) :
    (s.ports.outReady = false ∧ awaitOutput v s = s) ∨
    (s.ports.outReady = true ∧
      awaitOutput v s = complete { s with ports := { s.ports with output := s.ports.output ++ [v] } }) := by
  unfold awaitOutput
  cases s.ports.outReady with
  | true => exact .inr ⟨rfl, rfl⟩
  | false => exact .inl ⟨rfl, rfl⟩

/-- A run of one more step begins with the step. -/
theorem run_of_step {s t : State} (k : Nat) (h : step s = .next t) :
    Host.Core.run core (k + 1) s = Host.Core.run core k t := by
  have hc : core.step s = .next t := h
  simp only [Host.Core.run, hc]

theorem run_zero (s : State) : Host.Core.run core 0 s = .next s := rfl

/-- A property that holds at reset and that steps and host moves keep holds of every reachable state. -/
theorem reachable_of_invariant {P : State → Prop} (h0 : P State.reset)
    (hs : ∀ s t, P s → step s = .next t → P t) (hm : ∀ m s, P s → P (applyMove m s)) :
    ∀ s, Reachable s → P s := by
  intro s h
  induction h with
  | reset => exact h0
  | step _ hst ih => exact hs _ _ ih hst
  | move m _ ih => exact hm m _ ih

end Sys2Proof.Machine
end

