-- ==== Sys2Proof/Tests/Slice0.lean ====
section
/-! SUPPORT. Tests: the well-formedness smoke test, words written out from the spec's encoding, one or two steps of each
instruction, and a witness for the hypotheses of each statement. Expected results are those of spec/95_test_vectors.md
(its row is named) or of the rule named. -/

namespace Sys2Proof.Tests

open Sys2Proof.Machine

/-! ### Well-formedness: each check refuses an ill-formed term -/

theorem test_wf_accepts : Instr.wf (.rol (.reg 6) (.ind (.reg 0))) = true := by decide
theorem test_wf_store_accepts : Instr.wf (.store (.reg 0) (.imm 5)) = true := by decide
theorem test_wf_refuses_destination_7 : Instr.wf (.mov (.imm 1) .invalid) = false := by decide
theorem test_wf_refuses_register_7 : Instr.wf (.inc .invalid) = false := by decide
theorem test_wf_refuses_source_register_7 : Instr.wf (.add (.reg .invalid) (.reg 0)) = false := by decide
theorem test_wf_refuses_indirect_register_7 : Instr.wf (.out (.ind .invalid)) = false := by decide
theorem test_wf_refuses_mode_11 : Instr.wf (.shl (.reg 0) (.bad 0 0)) = false := by decide
theorem test_wf_refuses_register_address : Instr.wf (.store (.reg 0) (.reg (.reg 1))) = false := by decide
theorem test_wf_refuses_address_mode_11 : Instr.wf (.load (.reg 0) (.bad 0 0)) = false := by decide
theorem test_wf_refuses_address_register_7 : Instr.wf (.load (.reg 0) (.ind .invalid)) = false := by decide

/-! ### Words, bit by bit from R62, R66 (lines of R78 and rows of 95_test_vectors.md) -/

theorem test_decode_mov : decodeWord 0b0001_01_011_100_0000_0000000000000000 = .ok (.mov (.ind (.reg 3)) (.reg 4)) := by
  decide
theorem test_decode_add : decodeWord 0b0010_00_001_000_0000_0000000000000000 = .ok (.add (.reg (.reg 1)) (.reg 0)) := by
  decide
theorem test_decode_sub : decodeWord 0b0011_10_000_101_0000_0000000000000001 = .ok (.sub (.imm 1) (.reg 5)) := by decide
theorem test_decode_mul : decodeWord 0b0100_01_010_110_0000_0000000000000000 = .ok (.mul (.ind (.reg 2)) (.reg 6)) := by
  decide
theorem test_decode_div : decodeWord 0b0101_10_000_001_0000_1111111111111101 = .ok (.div (.imm (-3)) (.reg 1)) := by
  decide
theorem test_decode_inc : decodeWord 0b0110_00_000_011_0000_0000000000000000 = .ok (.inc (.reg 3)) := by decide
theorem test_decode_dec : decodeWord 0b0111_00_000_110_0000_0000000000000000 = .ok (.dec (.reg 6)) := by decide
theorem test_decode_rol : decodeWord 0b1000_10_000_000_0000_0000000000000001 = .ok (.rol (.reg 0) (.imm 1)) := by decide
theorem test_decode_ror : decodeWord 0b1001_00_001_000_0000_0000000000000000 = .ok (.ror (.reg 0) (.reg (.reg 1))) := by
  decide
theorem test_decode_shl : decodeWord 0b1010_10_000_010_0000_0000000000001000 = .ok (.shl (.reg 2) (.imm 8)) := by decide
theorem test_decode_shr : decodeWord 0b1011_01_100_010_0000_0000000000000000 = .ok (.shr (.reg 2) (.ind (.reg 4))) := by
  decide
theorem test_decode_in : decodeWord 0b1100_00_000_100_0000_0000000000000000 = .ok (.inp (.reg 4)) := by decide
theorem test_decode_out : decodeWord 0b1101_10_000_000_0000_1111111111111001 = .ok (.out (.imm (-7))) := by decide
theorem test_decode_store : decodeWord 0b1110_01_010_001_0000_0000000000000000 = .ok (.store (.reg 1) (.ind (.reg 2))) := by
  decide
theorem test_decode_load : decodeWord 0b1111_10_000_010_0000_0000000000111111 = .ok (.load (.reg 2) (.imm 63)) := by
  decide
/-- Row T7-10: mode 11 and register 7 pass decode. -/
theorem test_decode_bad_operand : decodeWord 0x1C700000 = .ok (.mov (.bad 0 0) .invalid) := by decide

/-- Rows T7-1 to T7-8 and T7-13: no instruction. -/
theorem test_reject_opcode_0 : decodeWord 0x08000005 = .error .reservedOpcode := by decide
theorem test_reject_sbz : decodeWord 0x18010005 = .error .reservedBitsSet := by decide
theorem test_reject_inc_imm : decodeWord 0x60300001 = .error .unusedFieldSet := by decide
theorem test_reject_inc_smode : decodeWord 0x68300000 = .error .unusedFieldSet := by decide
theorem test_reject_inc_sreg : decodeWord 0x63B00000 = .error .unusedFieldSet := by decide
theorem test_reject_out_r : decodeWord 0xD2100000 = .error .unusedFieldSet := by decide
theorem test_reject_reg_imm : decodeWord 0x10A00001 = .error .unusedFieldSet := by decide
theorem test_reject_imm_sreg : decodeWord 0x18800005 = .error .unusedFieldSet := by decide
/-- R52: little-endian bytes; R71: four of them. -/
theorem test_decode_bytes : decodeBytes [0x05, 0x00, 0x00, 0x18, 0xAA] = .ok (.mov (.imm 5) (.reg 0), [0xAA]) := by decide
theorem test_decode_bytes_short : decodeBytes [0x05, 0x00, 0x00] = .error .truncated := by decide
theorem test_table_word : decodeTableWord 32 0xC0400000 = some (.inp (.reg 4)) := by decide

/-! ### One instruction each (rows of 95_test_vectors.md) -/

/-- The state after reset and its quiet cycle, with these registers and cells. -/
def start (regs : Vector Byte 7) (mem : List Host.Cell) : State :=
  { State.reset with regs := regs, mem := mem, phase := .idle false }

/-- The state that one outcome is, if it is one. -/
def stateOf : Host.Outcome State Fault Refusal → Option State
  | .next t => some t
  | .fault _ => none
  | .refused _ => none

/-- What one instruction leaves: registers, cells, CF OF UF ZF, ERR, PC. -/
def result (i : Instr) (s : State) : Option (Vector Byte 7 × List Host.Cell × Flags × BitVec 3 × Half) :=
  (stateOf (exec i s)).map fun t => (t.regs, t.mem, t.flags, t.err, t.pc)

/-- Row T2-3. -/
theorem test_mov_indirect : result (.mov (.ind (.reg 3)) (.reg 4)) (start #v[0, 0, 0, 63, 0, 0, 0] [(63, 200)]) =
    some (#v[0, 0, 0, 63, 200, 0, 0], [(63, 200)], ⟨false, false, false, false⟩, 0, 1) := by decide
/-- Row T1-7. -/
theorem test_mov_256 : result (.mov (.imm 256) (.reg 0)) (start #v[0, 0, 0, 0, 0, 0, 0] []) =
    some (#v[0, 0, 0, 0, 0, 0, 0], [], ⟨true, true, false, true⟩, 0, 1) := by decide
/-- Row T3-7. -/
theorem test_add_indirect : result (.add (.ind (.reg 1)) (.reg 0)) (start #v[1, 7, 0, 0, 0, 0, 0] [(7, 254)]) =
    some (#v[255, 7, 0, 0, 0, 0, 0], [(7, 254)], ⟨false, false, false, false⟩, 0, 1) := by decide
/-- Row T3-5. -/
theorem test_add_negative : result (.add (.imm (-5)) (.reg 0)) (start #v[3, 0, 0, 0, 0, 0, 0] []) =
    some (#v[255, 0, 0, 0, 0, 0, 0], [], ⟨false, false, true, false⟩, 0, 1) := by decide
/-- Row T3-8. -/
theorem test_sub_order : result (.sub (.imm 1) (.reg 5)) (start #v[0, 0, 0, 0, 0, 10, 0] []) =
    some (#v[0, 0, 0, 0, 0, 9, 0], [], ⟨false, false, false, false⟩, 0, 1) := by decide
/-- Row T3-10. -/
theorem test_sub_overflow : result (.sub (.imm (-1)) (.reg 0)) (start #v[255, 0, 0, 0, 0, 0, 0] []) =
    some (#v[0, 0, 0, 0, 0, 0, 0], [], ⟨true, true, false, true⟩, 0, 1) := by decide
/-- Row T3-12. -/
theorem test_mul : result (.mul (.imm 20) (.reg 6)) (start #v[0, 0, 0, 0, 0, 0, 12] []) =
    some (#v[0, 0, 0, 0, 0, 0, 240], [], ⟨false, false, false, false⟩, 0, 1) := by decide
/-- Row T3-17. -/
theorem test_mul_widest : result (.mul (.imm 32767) (.reg 6)) (start #v[0, 0, 0, 0, 0, 0, 255] []) =
    some (#v[0, 0, 0, 0, 0, 0, 0], [], ⟨true, true, false, true⟩, 0, 1) := by decide
/-- Row T3-22: truncation toward zero. -/
theorem test_div_truncates : result (.div (.imm (-3)) (.reg 1)) (start #v[0, 1, 0, 0, 0, 0, 0] []) =
    some (#v[0, 0, 0, 0, 0, 0, 0], [], ⟨false, false, false, true⟩, 0, 1) := by decide
/-- Row T3-24: a zero cell as divisor. -/
theorem test_div_by_zero_cell : result (.div (.ind (.reg 0)) (.reg 1)) (start #v[0, 50, 0, 0, 0, 0, 0] []) =
    some (#v[0, 50, 0, 0, 0, 0, 0], [], ⟨false, false, false, false⟩, 6, 1) := by decide
/-- Row T3-27. -/
theorem test_inc_overflow : result (.inc (.reg 3)) (start #v[0, 0, 0, 255, 0, 0, 0] []) =
    some (#v[0, 0, 0, 0, 0, 0, 0], [], ⟨true, true, false, true⟩, 0, 1) := by decide
/-- Row T3-30: InvalidRegister, not InvalidDestination. -/
theorem test_inc_bad_register : result (.inc .invalid) (start #v[0, 0, 0, 0, 0, 0, 0] []) =
    some (#v[0, 0, 0, 0, 0, 0, 0], [], ⟨false, false, false, false⟩, 2, 1) := by decide
/-- Row T3-28. -/
theorem test_dec_to_zero : result (.dec (.reg 6)) (start #v[0, 0, 0, 0, 0, 0, 1] []) =
    some (#v[0, 0, 0, 0, 0, 0, 0], [], ⟨false, false, false, true⟩, 0, 1) := by decide
/-- Row T3-29. -/
theorem test_dec_underflow : result (.dec (.reg 6)) (start #v[0, 0, 0, 0, 0, 0, 0] []) =
    some (#v[0, 0, 0, 0, 0, 0, 255], [], ⟨false, false, true, false⟩, 0, 1) := by decide
/-- Row T4-3. -/
theorem test_rol_by_7 : result (.rol (.reg 0) (.imm 7)) (start #v[90, 0, 0, 0, 0, 0, 0] []) =
    some (#v[45, 0, 0, 0, 0, 0, 0], [], ⟨false, false, false, false⟩, 0, 1) := by decide
/-- Row T4-8: the amount is the register's own old value. -/
theorem test_rol_by_itself : result (.rol (.reg 1) (.reg (.reg 1))) (start #v[0, 3, 0, 0, 0, 0, 0] []) =
    some (#v[0, 24, 0, 0, 0, 0, 0], [], ⟨false, false, false, false⟩, 0, 1) := by decide
/-- Row T4-7. -/
theorem test_ror_by_register : result (.ror (.reg 0) (.reg (.reg 1))) (start #v[1, 4, 0, 0, 0, 0, 0] []) =
    some (#v[16, 4, 0, 0, 0, 0, 0], [], ⟨false, false, false, false⟩, 0, 1) := by decide
/-- Row T4-5. -/
theorem test_ror_by_9 : result (.ror (.reg 0) (.imm 9)) (start #v[90, 0, 0, 0, 0, 0, 0] []) =
    some (#v[45, 0, 0, 0, 0, 0, 0], [], ⟨false, false, false, false⟩, 0, 1) := by decide
/-- Row T4-12. -/
theorem test_shl_by_7 : result (.shl (.reg 2) (.imm 7)) (start #v[0, 0, 255, 0, 0, 0, 0] []) =
    some (#v[0, 0, 128, 0, 0, 0, 0], [], ⟨false, false, false, false⟩, 0, 1) := by decide
/-- Row T4-18: the amount is not reduced modulo 8. -/
theorem test_shl_by_1000 : result (.shl (.reg 2) (.imm 1000)) (start #v[0, 0, 1, 0, 0, 0, 0] []) =
    some (#v[0, 0, 0, 0, 0, 0, 0], [], ⟨false, false, false, true⟩, 0, 1) := by decide
/-- Row T4-16. -/
theorem test_shr_indirect : result (.shr (.reg 2) (.ind (.reg 4))) (start #v[0, 0, 128, 0, 3, 0, 0] [(3, 4)]) =
    some (#v[0, 0, 8, 0, 3, 0, 0], [(3, 4)], ⟨false, false, false, false⟩, 0, 1) := by decide
/-- Row T4-19, for SHR: a negative amount is InvalidOperand. -/
theorem test_shr_negative : result (.shr (.reg 0) (.imm (-1))) (start #v[1, 0, 0, 0, 0, 0, 0] []) =
    some (#v[1, 0, 0, 0, 0, 0, 0], [], ⟨false, false, false, false⟩, 5, 1) := by decide

/-- The state after an IN or OUT is executed and its wait is served: the step after `exec`. -/
def served (i : Instr) (s : State) : Option State := (stateOf (exec i s)).bind fun t => stateOf (step t)

/-- Row T5-3. -/
theorem test_in_negative :
    (served (.inp (.reg 4)) (applyMove (.offerInput (-5)) State.reset)).map
      (fun t => (t.regs, t.flags, t.ports.input, t.phase)) =
      some (#v[0, 0, 0, 0, 255, 0, 0], ⟨false, false, true, false⟩, [], .report false) := by decide
/-- R113: with a value already offered IN still enters `WaitIn` and drives `in_req` there, the value not yet taken. -/
theorem test_in_requests :
    (stateOf (exec (.inp (.reg 4)) (applyMove (.offerInput 42) State.reset))).map
      (fun t => (t.phase, inReady t, t.ports.input, t.pc)) = some (.waitIn 4, true, [42], 0) := by decide
/-- Row T5-5: the input is not consumed. -/
theorem test_in_bad_destination :
    (stateOf (exec (.inp .invalid) (applyMove (.offerInput 42) State.reset))).map
      (fun t => (t.err, t.phase, t.ports.input)) = some (3, .report false, [42]) := by decide
/-- Row T5-8: no policy. -/
theorem test_out_300 :
    (served (.out (.imm 300)) State.reset).map (fun t => (t.ports.output, t.flags, t.phase)) =
      some ([300], ⟨false, false, false, false⟩, .report false) := by decide
/-- R116: with the host ready OUT still enters `WaitOut` and drives `out_valid` and `out_data` there. -/
theorem test_out_presents :
    (stateOf (exec (.out (.imm (-7))) State.reset)).map (fun t => (t.phase, outValid t, t.ports.output)) =
      some (.waitOut 0xFFF9, some 0xFFF9, []) := by decide
/-- Row T5-10. -/
theorem test_out_outside : result (.out (.ind (.reg 1))) (start #v[0, 64, 0, 0, 0, 0, 0] []) =
    some (#v[0, 64, 0, 0, 0, 0, 0], [], ⟨false, false, false, false⟩, 4, 1) := by decide
/-- Row T6-2. -/
theorem test_store_63 : result (.store (.reg 0) (.imm 63)) (start #v[8, 0, 0, 0, 0, 0, 0] []) =
    some (#v[8, 0, 0, 0, 0, 0, 0], [(63, 8)], ⟨false, false, false, false⟩, 0, 1) := by decide
/-- Row S11. -/
theorem test_store_64 : result (.store (.reg 0) (.imm 64)) (start #v[77, 0, 0, 0, 0, 0, 0] []) =
    some (#v[77, 0, 0, 0, 0, 0, 0], [], ⟨false, false, false, false⟩, 4, 1) := by decide
/-- Row T6-11: the destination is the base. -/
theorem test_load_own_base : result (.load (.reg 5) (.ind (.reg 5))) (start #v[0, 0, 0, 0, 0, 3, 0] [(3, 250)]) =
    some (#v[0, 0, 0, 0, 0, 250, 0], [(3, 250)], ⟨false, false, false, false⟩, 0, 1) := by decide
/-- Row T6-10: a loaded 0 sets no flag. -/
theorem test_load_zero : result (.load (.reg 2) (.imm 0)) (start #v[0, 0, 5, 0, 0, 0, 0] []) =
    some (#v[0, 0, 0, 0, 0, 0, 0], [], ⟨false, false, false, false⟩, 0, 1) := by decide

/-! ### Memory form, cycle, assembler -/

/-- Storing the reset contents removes the entry. -/
theorem test_write_zero_unlists : Memory.write [(3, 7), (5, 1)] 3 0 = [(5, 1)] := by decide
theorem test_wf_refuses_zero_entry : Memory.wf [(3, 0)] = false := by decide
theorem test_wf_refuses_disorder : Memory.wf [(5, 1), (3, 1)] = false := by decide
theorem test_wf_refuses_outside : Memory.wf [(64, 1)] = false := by decide

/-- R138: in the first cycle after reset an offered word is not taken; after it, with nothing offered, Idle waits
(R136). -/
theorem test_reset_is_quiet :
    (stateOf (step (applyMove (.offerInstr ⟨0x60600000, false⟩) State.reset))).map
      (fun t => (t.phase, t.ports.instr, instrReady t)) = some (.idle false, [⟨0x60600000, false⟩], true) := by decide
theorem test_reset_idles :
    step { State.reset with phase := .idle false } = .next { State.reset with phase := .idle false } := rfl

/-- The reports accepted (PC, flags, ERR, final), and the flags and phase after them. -/
structure Seen where
  reports : List (Half × BitVec 4 × BitVec 3 × Bool)
  flags : Flags
  phase : Phase
deriving DecidableEq, Repr

def reported : Host.Outcome State Fault Refusal → Option Seen
  | .next t => some ⟨t.ports.reports.map fun r => (r.pc, r.flags, r.err, r.final), t.flags, t.phase⟩
  | .fault _ => none
  | .refused _ => none

/-- Row S3: ADD 1, R0 from R0 = 255, its report and the state after it: CF, OF and ZF are in the report only. -/
theorem test_report_shows_flags :
    reported (Host.Core.run core 2 ((start #v[255, 0, 0, 0, 0, 0, 0] []).withFetchWord 32 0x28000001)) =
      some ⟨[(1, 0b1011, 0, false)], ⟨false, false, false, false⟩, .idle false⟩ := by decide

/-- Row T7-2: a word that is no instruction is reported with code 1. -/
theorem test_report_illegal_word :
    reported (Host.Core.run core 2 (State.reset.withFetchWord 32 0x08000005)) =
      some ⟨[(1, 0, 1, false)], ⟨false, false, false, false⟩, .idle false⟩ := by decide

/-- Row T8-1: PC wraps. -/
theorem test_pc_wraps : result (.inc (.reg 0)) { State.reset with pc := 65535 } =
    some (#v[1, 0, 0, 0, 0, 0, 0], [], ⟨false, false, false, false⟩, 0, 0) := by decide

/-- Lines of R78, rows T2-9 and T2-10, and R76's table. -/
theorem test_assemble_mov : Assembler.assemble ["MOV".toList, "5".toList, "R0".toList] = some 0x18000005 := by decide
theorem test_assemble_shr : Assembler.assemble ["SHR".toList, "R2".toList, "[R4]".toList] = some 0xB6200000 := by decide
theorem test_assemble_negative : Assembler.assemble ["OUT".toList, "-7".toList] = some 0xD800FFF9 := by decide
theorem test_assemble_large : Assembler.assemble ["MOV".toList, "40000".toList, "R0".toList] = some 0x1C000000 := by decide
theorem test_assemble_hex : Assembler.assemble ["MOV".toList, "0x10".toList, "R0".toList] = some 0x1C000000 := by decide
theorem test_assemble_bad_register : Assembler.assemble ["MOV".toList, "R7".toList, "R0".toList] = some 0x13800000 := by
  decide
theorem test_assemble_bad_indirect : Assembler.assemble ["OUT".toList, "[R12]".toList] = some 0xD7800000 := by decide
theorem test_assemble_lower_case : Assembler.assemble ["mov".toList, "5".toList, "R0".toList] = some 0 := by decide
theorem test_assemble_wrong_count : Assembler.assemble ["INC".toList] = some 0 := by decide
theorem test_assemble_program :
    Assembler.assembleProgram ["  MOV 5,, R0".toList, " , ".toList, "INC\tR3".toList] = [0x18000005, 0x60300000] := by
  decide
theorem test_tokenize_quoted :
    Assembler.tokenize "OUT \"a, b\" ,R1".toList = ["OUT".toList, "\"a, b\"".toList, "R1".toList] := by decide
theorem test_assemble_blank : Assembler.assemble [] = none := by decide

/-! ### Witnesses: concrete states and operands that meet the hypotheses of the statements, clause by clause -/

/-- R0..R6 and two cells, so that every operand form has a value, at the boundary of its range. -/
def sample : State := start #v[255, 3, 10, 63, 64, 1, 0] [(10, 7), (63, 200)]

theorem sample_memory_wf : Memory.wf sample.mem = true := by decide
theorem value_register : HasValue sample (.reg (.reg 0)) 255 := .reg 0
theorem value_indirect_63 : HasValue sample (.ind (.reg 3)) 200 := .ind 3 (by decide)
theorem value_indirect_zero : HasValue sample (.ind (.reg 5)) 0 := .ind 5 (by decide)
theorem value_literal_least : HasValue sample (.imm 0x8000) (-32768) := .imm 0x8000
theorem value_literal_greatest : HasValue sample (.imm 0x7FFF) 32767 := .imm 0x7FFF
theorem value_literal_zero : HasValue sample (.imm 0) 0 := .imm 0
theorem fails_indirect_64 : ValueFails sample (.ind (.reg 4)) .outOfBounds := .ind 4 (by decide)
theorem fails_register_7 : ValueFails sample (.reg .invalid) .invalidRegister := .reg
theorem fails_indirect_7 : ValueFails sample (.ind .invalid) .invalidRegister := .indReg
theorem fails_mode_11 : ValueFails sample (.bad 5 6) .invalidOperand := .bad 5 6
theorem address_indirect : HasAddress sample (.ind (.reg 3)) 63 := .ind 3
theorem address_indirect_64 : HasAddress sample (.ind (.reg 4)) 64 := .ind 4
theorem address_literal_0 : HasAddress sample (.imm 0) 0 := .imm 0
theorem address_literal_negative : HasAddress sample (.imm 0xFFFF) (-1) := .imm 0xFFFF
theorem address_fails_register : AddressFails sample (.reg (.reg 1)) .invalidOperand := .reg (.reg 1)
theorem address_fails_7 : AddressFails sample (.ind .invalid) .invalidRegister := .indReg
theorem address_fails_mode_11 : AddressFails sample (.bad 0 0) .invalidOperand := .bad 0 0

/-- The hypotheses of the rules of `op S, Rd`: a value with a destination, a failing source, a value with none. -/
def SourceToRegHypotheses : Prop :=
  (∃ (src : Source) (dst : RegField) (n : Reg) (v : Int), dst = .reg n ∧ HasValue sample src v) ∧
  (∃ (src : Source) (e : ErrorCause), ValueFails sample src e) ∧
  (∃ (src : Source) (dst : RegField) (v : Int), dst = .invalid ∧ HasValue sample src v)

theorem sourceToReg_hypotheses : SourceToRegHypotheses :=
  ⟨⟨_, .reg 6, 6, _, rfl, value_indirect_63⟩, ⟨_, _, fails_indirect_64⟩, ⟨_, .invalid, _, rfl, value_register⟩⟩

theorem witness_MovCopiesThroughPolicy : SourceToRegHypotheses := sourceToReg_hypotheses
theorem witness_AddCommitsSum : SourceToRegHypotheses := sourceToReg_hypotheses
theorem witness_SubCommitsDifference : SourceToRegHypotheses := sourceToReg_hypotheses
theorem witness_MulCommitsProduct : SourceToRegHypotheses := sourceToReg_hypotheses

theorem witness_DivCommitsQuotient :
    SourceToRegHypotheses ∧ (HasValue sample (.imm 0x8000) (-32768) ∧ (-32768 : Int) ≠ 0) ∧
      HasValue sample (.ind (.reg 5)) 0 :=
  ⟨sourceToReg_hypotheses, ⟨value_literal_least, by decide⟩, value_indirect_zero⟩

/-- Each row of the table with R0 = 255 or R1 = 3: zero; larger than the dividend; equal to it, of either sign. -/
theorem witness_DivSignTable :
    HasValue sample (.imm 0) 0 ∧
    (HasValue sample (.imm 256) 256 ∧ ((readReg sample 0).toNat : Int) < |256|) ∧
    (HasValue sample (.imm 0xFF00) (-256) ∧ ((readReg sample 0).toNat : Int) < |-256|) ∧
    (HasValue sample (.imm 3) 3 ∧ (0 : Int) < 3 ∧ (3 : Int) ≤ (readReg sample 1).toNat) ∧
    (HasValue sample (.imm 0xFF01) (-255) ∧ (-255 : Int) < 0 ∧ |(-255 : Int)| ≤ (readReg sample 0).toNat) :=
  ⟨.imm 0, ⟨.imm 256, by decide⟩, ⟨.imm 0xFF00, by decide⟩, ⟨.imm 3, by decide⟩, ⟨.imm 0xFF01, by decide⟩⟩

theorem witness_IncAddsOne : readReg sample 0 = 255 ∧ readReg sample 6 ≠ 255 := by decide
theorem witness_DecSubtractsOne : readReg sample 6 = 0 ∧ readReg sample 5 = 1 ∧ readReg sample 5 ≠ 0 := by decide
theorem witness_IntermediatesFitDatapath :
    (255 : Int) = (readReg sample 0).toNat ∧ HasValue sample (.imm 0x8000) (-32768) ∧ (-32768 : Int) ≠ 0 :=
  ⟨rfl, value_literal_least, by decide⟩
theorem witness_MovLiteralReadsBack :
    (0 ≤ BitVec.toInt (0 : Half) ∧ BitVec.toInt (0 : Half) ≤ 255) ∧
      (0 ≤ BitVec.toInt (255 : Half) ∧ BitVec.toInt (255 : Half) ≤ 255) := by decide

/-- The hypotheses of the rotate and shift rules: amounts 0 and 32767, a failing amount, a negative one. -/
def BitMoveHypotheses : Prop :=
  (HasValue sample (.imm 0) 0 ∧ (0 : Int) ≤ 0) ∧ (HasValue sample (.imm 0x7FFF) 32767 ∧ (0 : Int) ≤ 32767) ∧
  ValueFails sample (.ind (.reg 4)) .outOfBounds ∧ (HasValue sample (.imm 0xFFFF) (-1) ∧ (-1 : Int) < 0)

theorem bitMove_hypotheses : BitMoveHypotheses :=
  ⟨⟨value_literal_zero, by decide⟩, ⟨value_literal_greatest, by decide⟩, fails_indirect_64, ⟨.imm 0xFFFF, by decide⟩⟩

theorem witness_RolRotatesLeft : BitMoveHypotheses := bitMove_hypotheses
theorem witness_RorRotatesRight : BitMoveHypotheses := bitMove_hypotheses
theorem witness_ShlShiftsLeft : BitMoveHypotheses := bitMove_hypotheses
theorem witness_ShrShiftsRight : BitMoveHypotheses := bitMove_hypotheses

theorem witness_PolicySaturates : (256 : Int) > 255 ∧ (-1 : Int) < 0 ∧ (1 : Int) ≤ 1 ∧ (255 : Int) ≤ 255 := by decide
theorem witness_MemReadIsBoundsChecked :
    ((0 : Int) ≤ 0 ∧ (63 : Int) ≤ 63) ∧ ((-1 : Int) < 0 ∨ (-1 : Int) > 63) ∧ ((64 : Int) < 0 ∨ (64 : Int) > 63) := by
  decide

/-- The instruction answers a next state with this `ERR` and this phase. -/
def endsWith (i : Instr) (s : State) (err : BitVec 3) (phase : Phase) : Prop :=
  ∃ t, exec i s = .next t ∧ t.err = err ∧ t.phase = phase

theorem witness_MemWriteIsBoundsChecked :
    Memory.wf sample.mem = true ∧ endsWith (.inc (.reg 0)) sample 0 (.report false) ∧
      endsWith (.store (.reg 0) (.imm 64)) sample 4 (.report false) :=
  ⟨by decide, ⟨_, rfl, rfl, rfl⟩, ⟨_, rfl, rfl, rfl⟩⟩

theorem witness_InReadsOneValue :
    ∃ s : State, s.ports.rst = false ∧ ∃ v rest, s.ports.input = v :: rest :=
  ⟨applyMove (.offerInput 42) sample, rfl, 42, [], rfl⟩

theorem witness_OutSendsOneValue :
    HasValue sample (.imm 0x8000) (-32768) ∧ sample.ports.rst = false ∧ sample.ports.outReady = true ∧
      ValueFails sample (.ind (.reg 4)) .outOfBounds :=
  ⟨value_literal_least, rfl, rfl, fails_indirect_64⟩

/-- A step answers a next state in a state with `rst` low and this phase. -/
def stepsFrom (s : State) (phase : Phase) : Prop := s.ports.rst = false ∧ s.phase = phase ∧ ∃ t, step s = .next t

/-- An IN waits with a value offered, and with none; an OUT waits with the host ready, and not. -/
theorem waits_are_served :
    stepsFrom (applyMove (.offerInput 42) { sample with phase := .waitIn 4 }) (.waitIn 4) ∧
      stepsFrom { sample with phase := .waitIn 4 } (.waitIn 4) ∧
      stepsFrom { sample with phase := .waitOut 7 } (.waitOut 7) ∧
      stepsFrom (applyMove (.setOutReady false) { sample with phase := .waitOut 7 }) (.waitOut 7) :=
  ⟨⟨rfl, rfl, _, rfl⟩, ⟨rfl, rfl, _, rfl⟩, ⟨rfl, rfl, _, rfl⟩, ⟨rfl, rfl, _, rfl⟩⟩

theorem witness_WaitInWaitsForOneValue :
    (∃ s : State, s.ports.rst = false ∧ s.phase = .waitIn 4 ∧ s.ports.input = []) ∧
      ∃ s : State, s.ports.rst = false ∧ s.phase = .waitIn 4 ∧ s.ports.input = 42 :: [] :=
  ⟨⟨{ sample with phase := .waitIn 4 }, rfl, rfl, rfl⟩,
    ⟨applyMove (.offerInput 42) { sample with phase := .waitIn 4 }, rfl, rfl, rfl⟩⟩

theorem witness_WaitOutHoldsItsValue :
    HasValue sample (.imm 0x8000) (-32768) ∧
      (∃ s : State, s.ports.rst = false ∧ s.phase = .waitOut 7 ∧ s.ports.outReady = false) ∧
      ∃ s : State, s.ports.rst = false ∧ s.phase = .waitOut 7 ∧ s.ports.outReady = true :=
  ⟨value_literal_least, ⟨applyMove (.setOutReady false) { sample with phase := .waitOut 7 }, rfl, rfl, rfl⟩,
    ⟨{ sample with phase := .waitOut 7 }, rfl, rfl, rfl⟩⟩

theorem witness_StoreWritesOneCell :
    (HasAddress sample (.ind (.reg 3)) 63 ∧ HasAddress sample (.imm 0) 0 ∧ Memory.wf sample.mem = true) ∧
      HasAddress sample (.ind (.reg 4)) 64 ∧ HasAddress sample (.imm 0xFFFF) (-1) ∧
      AddressFails sample (.reg (.reg 1)) .invalidOperand ∧
      (endsWith (.store (.reg 0) (.ind (.reg 3))) sample 0 (.report false) ∧
        resolveAddress sample (.ind (.reg 3)) = .ok 63) :=
  ⟨⟨address_indirect, address_literal_0, by decide⟩, address_indirect_64, address_literal_negative,
    address_fails_register, ⟨_, rfl, rfl, rfl⟩, rfl⟩

theorem witness_LoadReadsOneCell :
    HasAddress sample (.ind (.reg 3)) 63 ∧ HasAddress sample (.imm 0) 0 ∧ HasAddress sample (.ind (.reg 4)) 64 ∧
      HasAddress sample (.imm 0xFFFF) (-1) ∧ AddressFails sample (.ind .invalid) .invalidRegister :=
  ⟨address_indirect, address_literal_0, address_indirect_64, address_literal_negative, address_fails_7⟩

theorem witness_StoreThenLoadReturnsValue :
    Memory.wf sample.mem = true ∧ (0 ≤ BitVec.toInt (63 : Half) ∧ BitVec.toInt (63 : Half) ≤ 63) := by decide

theorem witness_OnlyDestinationChanges :
    endsWith (.load (.reg 1) (.imm 63)) sample 0 (.report false) ∧
      destination (.load (.reg 1) (.imm 63)) ≠ some 2 ∧
      stepsFrom (applyMove (.offerInput 42) { sample with phase := .waitIn 4 }) (.waitIn 4) ∧ (5 : Reg) ≠ 4 ∧
      stepsFrom { sample with phase := .waitOut 7 } (.waitOut 7) :=
  ⟨⟨_, rfl, rfl, rfl⟩, by decide, waits_are_served.1, by decide, waits_are_served.2.2.1⟩

theorem witness_FlagsWrittenOnlyByPolicy :
    (endsWith (.load (.reg 1) (.imm 63)) sample 0 (.report false) ∧ appliesPolicy (.load (.reg 1) (.imm 63)) = false) ∧
      endsWith (.div (.imm 0) (.reg 1)) sample 6 (.report false) ∧
      (endsWith (.mov (.imm 300) (.reg 1)) sample 0 (.report false) ∧ appliesPolicy (.mov (.imm 300) (.reg 1)) = true) ∧
      endsWith (.inp (.reg 1)) sample 0 (.waitIn 1) ∧
      stepsFrom (applyMove (.offerInput 42) { sample with phase := .waitIn 4 }) (.waitIn 4) ∧
      stepsFrom { sample with phase := .waitOut 7 } (.waitOut 7) :=
  ⟨⟨⟨_, rfl, rfl, rfl⟩, rfl⟩, ⟨_, rfl, rfl, rfl⟩, ⟨⟨_, rfl, rfl, rfl⟩, rfl⟩, ⟨_, rfl, rfl, rfl⟩, waits_are_served.1,
    waits_are_served.2.2.1⟩

theorem witness_ErrorsArePrecise :
    endsWith (.mov (.ind (.reg 4)) .invalid) sample 4 (.report false) ∧ sample.ports.rst = false ∧
      sample.ports.repReady = true :=
  ⟨⟨_, rfl, rfl, rfl⟩, rfl, rfl⟩

theorem witness_NoInstructionReadsStatus :
    endsWith (.add (.reg (.reg 0)) (.reg 1)) sample 0 (.report false) ∧
      endsWith (.inp (.reg 1)) sample 0 (.waitIn 1) ∧
      stepsFrom (applyMove (.offerInput 42) { sample with phase := .waitIn 4 }) (.waitIn 4) ∧
      stepsFrom { sample with phase := .waitOut 7 } (.waitOut 7) :=
  ⟨⟨_, rfl, rfl, rfl⟩, ⟨_, rfl, rfl, rfl⟩, waits_are_served.1, waits_are_served.2.2.1⟩

theorem witness_WellFormedNamesNoBadOperand :
    (Instr.wf (.rol (.reg 0) (.imm 0xFFFF)) = true ∧
      endsWith (.rol (.reg 0) (.imm 0xFFFF)) sample 5 (.report false)) ∧
    (Instr.wf (.div (.ind (.reg 5)) (.reg 0)) = true ∧
      endsWith (.div (.ind (.reg 5)) (.reg 0)) sample 6 (.report false)) :=
  ⟨⟨rfl, _, rfl, rfl, rfl⟩, ⟨rfl, _, rfl, rfl, rfl⟩⟩

theorem witness_ResetPutsEveryPieceToItsValue :
    ∃ s : State, s.ports.rst = true ∧ s.phase = .waitIn 4 ∧ readReg s 0 = 255 :=
  ⟨applyMove (.setRst true) { sample with phase := .waitIn 4 }, rfl, rfl, rfl⟩

theorem witness_ResetStateHasInvariant : ∃ s : State, s.ports.rst = true := ⟨applyMove (.setRst true) sample, rfl⟩

theorem witness_ExecutePhaseRunsDecodedWord :
    (∃ s : State, s.ports.rst = false ∧ s.phase = .execute 0x60300000 ∧
      decodeWord 0x60300000 = .ok (.inc (.reg 3))) ∧
    (∃ s : State, s.ports.rst = false ∧ s.phase = .execute (wordOfBytes 0x00 0x00 0x30 0x60) ∧
      decodeBytes [0x00, 0x00, 0x30, 0x60] = .ok (.inc (.reg 3), [])) ∧
    decodeTableWord 32 0x60300000 = some (.inc (.reg 3)) :=
  ⟨⟨{ sample with phase := .execute 0x60300000 }, rfl, rfl, by decide⟩,
    ⟨{ sample with phase := .execute (wordOfBytes 0x00 0x00 0x30 0x60) }, rfl, rfl, by decide⟩, by decide⟩

theorem witness_ReservedWordsAreAbandoned :
    ∃ (s : State) (w : Word), s.ports.rst = false ∧ s.phase = .execute w ∧ illegalWord w :=
  ⟨{ sample with phase := .execute 0x18010005 }, 0x18010005, rfl, rfl, .inr (.inl (by decide))⟩

/-- A word that no clause of the illegal encodings holds of: the encoding of an instruction. -/
theorem witness_EveryOtherWordIsAnInstruction : ¬ illegalWord (encode (.mov (.imm 5) (.reg 0))) :=
  (Laws.EncodedFields.mov _ _).2.2

theorem witness_EncodeOfDecodeIsTheWord : decodeWord 0xE8000005 = .ok (.store (.reg 0) (.imm 5)) := by decide

theorem witness_AssembledWordsAreLegal :
    Assembler.assemble [['I', 'N', 'C'], ['R', '3']] = some 0x60300000 ∧
      Assembler.assemble [['I', 'N', 'C']] = some 0 := by decide

/-- A state in Idle with one word offered. -/
def offered (w : Word) (progEnd : Bool) : State := applyMove (.offerInstr ⟨w, progEnd⟩) sample

theorem witness_InstructionCycle :
    (∃ u : State, u.phase = .report false ∧ decodeWord 0x60600000 = .ok (.inc (.reg 6)) ∧
      exec (.inc (.reg 6)) { offered 0x60600000 false with
        phase := .execute 0x60600000, ports := { (offered 0x60600000 false).ports with instr := [] } } = .next u) ∧
    (offered 0x60600000 false).ports.rst = false ∧ (offered 0x60600000 false).phase = .idle false ∧
    (offered 0x60600000 false).ports.instr = [⟨0x60600000, false⟩] ∧
    (offered 0x60600000 false).ports.repReady = true ∧ illegalWord 0 :=
  ⟨⟨_, rfl, by decide, rfl⟩, rfl, rfl, rfl, rfl, .inl (by decide)⟩

theorem witness_PortInstructionCycle :
    (offered 0xC0400000 false).ports.rst = false ∧ (offered 0xC0400000 false).phase = .idle false ∧
    (applyMove (.offerInput 42) (offered 0xC0400000 false)).ports.instr = [⟨0xC0400000, false⟩] ∧
    (offered 0xC0400000 false).ports.repReady = true ∧
    decodeWord 0xC0400000 = .ok (.inp (.reg 4)) ∧
    (applyMove (.offerInput 42) (offered 0xC0400000 false)).ports.input = [42] ∧
    (offered 0xD800FFF9 false).ports.instr = [⟨0xD800FFF9, false⟩] ∧
    decodeWord 0xD800FFF9 = .ok (.out (.imm 0xFFF9)) ∧ HasValue (offered 0xD800FFF9 false) (.imm 0xFFF9) (-7) ∧
    (offered 0xD800FFF9 false).ports.outReady = true :=
  ⟨rfl, rfl, rfl, rfl, by decide, rfl, rfl, by decide, .imm 0xFFF9, rfl⟩

theorem witness_ProgEndSendsFinalReport :
    ((offered 0 true).ports.rst = false ∧ (offered 0 true).phase = .idle false ∧
      (offered 0 true).ports.instr = [⟨0, true⟩] ∧ (offered 0 true).ports.repReady = true) ∧
    ∃ s : State, s.phase = .ended ∧ s.ports.rst = false :=
  ⟨⟨rfl, rfl, rfl, rfl⟩, ⟨{ sample with phase := .ended }, rfl, rfl⟩⟩

theorem witness_FlagsClearedAfterReport :
    (∃ s : State, s.ports.rst = false ∧ s.phase = .report false ∧ s.ports.repReady = true ∧ s.flags ≠ Flags.clear) ∧
    ∃ (s : State) (w : Word), Reachable s ∧ s.phase = .execute w :=
  ⟨⟨{ sample with phase := .report false, flags := Flags.overflow }, rfl, rfl, rfl, by decide⟩,
    ⟨_, 0x60600000, .step (.step (.move (.offerInstr ⟨0x60600000, false⟩) .reset) rfl) rfl, rfl⟩⟩

theorem witness_PortsDrivenInTheirPhases :
    (applyMove (.setRst true) sample).ports.rst = true ∧ State.reset.phase = .idle true ∧ sample.ports.rst = false :=
  ⟨rfl, rfl, rfl⟩

/-- A report waits and a word is offered when reset is driven. -/
theorem witness_ResetIsQuietForOneCycle :
    ∃ s : State, s.ports.rst = true ∧ s.phase = .report false ∧ s.ports.instr = [⟨0x60600000, false⟩] :=
  ⟨applyMove (.setRst true) { offered 0x60600000 false with phase := .report false }, rfl, rfl, rfl⟩

theorem witness_OneTransferPerStep : ∃ s t : State, s.ports.rst = false ∧ step s = .next t ∧ t ≠ s :=
  ⟨offered 0x60600000 false, _, rfl, rfl, by decide⟩

/-- A run of one word and `prog_end`: a per-instruction report and a final one. -/
theorem reachable_with_reports :
    ∃ s : State, Reachable s ∧ s.ports.reports.map (fun r => (r.pc, r.final)) = [(1, false), (1, true)] :=
  ⟨_, .step (.step (.step (.step (.step (.step (.move (.offerInstr ⟨0, true⟩)
    (.move (.offerInstr ⟨0x60600000, false⟩) .reset)) rfl) rfl) rfl) rfl) rfl) rfl, by decide⟩

/-- The reports of the reset state are in order, and so are those of a state whose report waits. -/
theorem reports_in_order :
    ReportsInOrder State.reset ∧ ReportsInOrder { State.reset with pc := 1, phase := .report false } :=
  ⟨⟨fun k r h => by simp [State.reset, Ports.quiet] at h, fun k r h => by simp [State.reset, Ports.quiet] at h, rfl⟩,
    ⟨fun k r h => by simp [State.reset, Ports.quiet] at h, fun k r h => by simp [State.reset, Ports.quiet] at h, rfl⟩⟩

theorem witness_PcCountsInstructions :
    (∃ s : State, Reachable s ∧ s.ports.reports.map (fun r => (r.pc, r.final)) = [(1, false), (1, true)]) ∧
      (∃ s t : State, s.ports.rst = false ∧ step s = .next t ∧ t.pc = s.pc + 1) ∧
      ∃ s t : State, ReportsInOrder s ∧ step s = .next t ∧ t.ports.reports.length = 1 :=
  ⟨reachable_with_reports, ⟨{ sample with phase := .execute 0x60600000 }, _, rfl, rfl, rfl⟩,
    ⟨{ State.reset with pc := 1, phase := .report false }, _, reports_in_order.2, rfl, rfl⟩⟩

theorem witness_ReportsShowLegalFlags :
    ∃ s : State, Reachable s ∧ s.ports.reports.map (fun r => (r.pc, r.final)) = [(1, false), (1, true)] :=
  reachable_with_reports

theorem sample_invariant : StateInv sample :=
  ⟨by decide, by decide, .inl rfl, fun _ => rfl⟩

theorem witness_StepKeepsInvariant : StateInv sample ∧ ∃ t, step sample = .next t := ⟨sample_invariant, _, rfl⟩
theorem witness_HostMovesKeepInvariant : StateInv sample := sample_invariant
theorem witness_EqualCellsAreEqualMemories : Memory.wf [(10, 7), (63, 200)] = true := by decide

end Sys2Proof.Tests
end

/-! SUPPORT. The state's own statements (spec/10_state.md): reset, and which steps write the flags. -/

namespace Sys2Proof.Machine

/-! ### A step while reset is driven, and in each wait -/

theorem step_of_rst {s : State} (hr : s.ports.rst = true) : step s = .next (applyReset s) := by
  simp [step, hr]

theorem step_of_waitIn {s : State} {n : Reg} (hr : s.ports.rst = false) (hp : s.phase = .waitIn n) :
    step s = .next (awaitInput n s) := by
  simp [step, hr, hp]

theorem step_of_waitOut {s : State} {v : Half} (hr : s.ports.rst = false) (hp : s.phase = .waitOut v) :
    step s = .next (awaitOutput v s) := by
  simp [step, hr, hp]

/-! ### The flags and the effects of an instruction (R32) -/

/-- Code 0 is `NONE` (R39); no cause has it (R122). -/
theorem errorCode_ne_zero (e : ErrorCause) : errorCode e ≠ 0 := by
  cases e <;> decide

/-- An effect leaves the flags, or it is the commit of an instruction with the policy. -/
theorem Effect.flags_kept_or_committed {i : Instr} {s t : State} (h : Effect i s t) :
    t.flags = s.flags ∨ appliesPolicy i = true ∧ ∃ n x, t = complete (writeResult n x s) := by
  cases h with
  | result n x _ hp => exact .inr ⟨hp, n, x, rfl⟩
  | error | loaded | stored | requested | presented => exact .inl rfl

/-- An instruction with the policy that ends without an error has committed a result. -/
theorem Effect.committed_of_policy {i : Instr} {s t : State} (h : Effect i s t) (hphase : t.phase = .report false)
    (herr : t.err = 0) (hp : appliesPolicy i = true) : ∃ n x, t = complete (writeResult n x s) := by
  cases h with
  | result n x => exact ⟨n, x, rfl⟩
  | error e => exact absurd herr (errorCode_ne_zero e)
  | requested => simp at hphase
  | loaded _ _ _ _ hi => simp [hi, appliesPolicy] at hp
  | stored _ _ _ _ hi => simp [hi, appliesPolicy] at hp
  | presented _ _ hi => simp [hi, appliesPolicy] at hp

theorem Effect.flags_kept_of_no_policy {i : Instr} {s t : State} (h : Effect i s t) (hp : appliesPolicy i = false) :
    t.flags = s.flags := by
  rcases h.flags_kept_or_committed with hkept | ⟨hp', _⟩
  · exact hkept
  · simp [hp] at hp'

/-- What is not a completed instruction, being abandoned or in its wait, leaves the flags. -/
theorem Effect.flags_kept_of_not_completed {i : Instr} {s t : State} (h : Effect i s t)
    (hn : ¬ (t.phase = .report false ∧ t.err = 0)) : t.flags = s.flags := by
  rcases h.flags_kept_or_committed with hkept | ⟨_, n, x, rfl⟩
  · exact hkept
  · exact absurd ⟨rfl, rfl⟩ hn

/-! ### The flags when a wait is served -/

theorem awaitInput_flags {s : State} {n : Reg} (hp : s.phase = .waitIn n) :
    ((awaitInput n s).phase = .waitIn n ∧ (awaitInput n s).flags = s.flags) ∨
    ((awaitInput n s).phase = .report false ∧
      ∃ v rest, s.ports.input = v :: rest ∧ (awaitInput n s).flags = (policy v.toInt).2) := by
  rcases awaitInput_cases n s with ⟨_, hstay⟩ | ⟨v, rest, hin, htake⟩
  · rw [hstay]
    exact .inl ⟨hp, rfl⟩
  · rw [htake]
    exact .inr ⟨rfl, v, rest, hin, rfl⟩

theorem awaitOutput_flags (v : Half) (s : State) : (awaitOutput v s).flags = s.flags := by
  rcases awaitOutput_cases v s with ⟨_, hstay⟩ | ⟨_, hsend⟩
  · rw [hstay]
  · rw [hsend, complete_eq, endInstruction_flags]

/-! ### The statements -/

/-- Settles O30: the effects of an instruction, and the two wait steps. -/
theorem flagsWrittenOnlyByPolicy : Obligations.FlagsWrittenOnlyByPolicy := by
  refine ⟨fun i s t h => ?_, fun s t n hr hp h => ?_, fun s t v hr hp h => ?_⟩
  · have heff := effect_of_exec h
    refine ⟨heff.flags_kept_of_no_policy, fun _ herr => ?_, fun hphase herr hp => ?_, fun hphase => ?_⟩
    · exact heff.flags_kept_of_not_completed fun hend => herr hend.2
    · obtain ⟨n, x, rfl⟩ := heff.committed_of_policy hphase herr hp
      exact ⟨x, rfl⟩
    · exact heff.flags_kept_of_not_completed fun hend => hphase hend.1
  · cases (step_of_waitIn hr hp).symm.trans h
    exact awaitInput_flags hp
  · cases (step_of_waitOut hr hp).symm.trans h
    exact awaitOutput_flags v s

/-- Settles O1: with `rst` high the phase is not looked at, and `applyReset` leaves what `State.reset` holds. -/
theorem resetPutsEveryPieceToItsValue : Obligations.ResetPutsEveryPieceToItsValue := fun s hr =>
  ⟨applyReset s, step_of_rst hr, readReg_reset, read_nil, applyReset_flags s, applyReset_pc s, applyReset_err s,
    applyReset_phase s⟩

end Sys2Proof.Machine

/-! SUPPORT. The memory's statements (spec/20_memory.md): the bounds-checked read and write, and who writes a cell. -/

namespace Sys2Proof.Machine

/-! ### One cell written in a canonical memory (R49) -/

/-- A write inside the memory sets the addressed cell and no other, and keeps the canonical form. -/
theorem cellSet_write {m : List Host.Cell} (hm : Memory.wf m = true) {a : Int} (h0 : 0 ≤ a) (h1 : a ≤ 63) (v : Byte) :
    Claims.CellSet m a v (Memory.write m a.toNat v) := by
  have hcell : a.toNat < Config.memSize := by simp only [Config.memSize]; omega
  refine ⟨wf_write hm v hcell, fun b => ?_⟩
  have hb : b = a.toNat ↔ (b : Int) = a := by omega
  simp only [read_write hm, hb]

/-! ### The effects of an instruction on the memory -/

/-- An effect leaves the memory, or it is the commit of a `STORE` that completes without an error. -/
theorem Effect.mem_kept_or_stored {i : Instr} {s t : State} (h : Effect i s t) :
    t.mem = s.mem ∨ (∃ src addr, i = .store src addr) ∧ t.err = 0 := by
  cases h with
  | stored src addr _ _ hi => exact .inr ⟨⟨src, addr, hi⟩, rfl⟩
  | error | result | loaded | requested | presented => exact .inl rfl

theorem Effect.mem_kept_of_not_store {i : Instr} {s t : State} (h : Effect i s t)
    (hi : ∀ src addr, i ≠ .store src addr) : t.mem = s.mem := by
  rcases h.mem_kept_or_stored with hkept | ⟨⟨src, addr, hstore⟩, _⟩
  · exact hkept
  · exact absurd hstore (hi src addr)

theorem Effect.mem_kept_of_err {i : Instr} {s t : State} (h : Effect i s t) (herr : t.err ≠ 0) : t.mem = s.mem :=
  h.mem_kept_or_stored.resolve_right fun hstored => herr hstored.2

/-! ### The statements -/

/-- Settles O7: the write's two cases, and the effects of an instruction on the memory. -/
theorem memWriteIsBoundsChecked : Obligations.MemWriteIsBoundsChecked := fun _ _ v =>
  ⟨fun h0 h1 hm => ⟨_, memWrite_inside v h0 h1, cellSet_write hm h0 h1 v⟩, memWrite_outside v,
    fun _ _ h hi => (effect_of_exec h).mem_kept_of_not_store hi,
    fun _ _ _ h herr => (effect_of_exec h).mem_kept_of_err herr⟩

/-- Settles O6: the read's two cases. -/
theorem memReadIsBoundsChecked : Obligations.MemReadIsBoundsChecked := fun _ _ =>
  ⟨memRead_inside, memRead_outside⟩

end Sys2Proof.Machine

/-! SUPPORT. The encoding's statements (spec/30_encoding.md): a word that decodes is the encoding of its instruction, so an
illegal word is abandoned. -/

namespace Sys2Proof.Machine

/-! ### What decodes packs to the fields it came from (R70) -/

/-- The S operand that the three fields decode to has these bits. -/
theorem bits_of_decodeSource {m : BitVec 2} {g : BitVec 3} {v : Half} {src : Source}
    (h : decodeSource m g v = .ok src) : src.smodeBits = m ∧ src.sregBits = g ∧ src.immBits = v := by
  unfold decodeSource at h
  split_ifs at h with h0 hv h1 hv h2 hg <;> cases h
  · exact ⟨h0.symm, encodeReg_decodeReg g, hv.symm⟩
  · exact ⟨h1.symm, encodeReg_decodeReg g, hv.symm⟩
  · exact ⟨h2.symm, hg.symm, rfl⟩
  · have h3 : m = 3 := by grind
    exact ⟨h3.symm, rfl, rfl⟩

section
variable {w : Word} {i : Instr} {n : Nat} (hz : sbzOf w = 0) (hop : (opOf w).toNat = n)
include hz hop

/-- The word is its fields again, with the opcode and the reserved bits that are known of it. -/
theorem packFields_of_op :
    packFields (BitVec.ofNat 4 n) (smodeOf w) (sregOf w) (rOf w) 0 (immOf w) = w := by
  have hopcode : BitVec.ofNat 4 n = opOf w := by rw [← hop, BitVec.ofNat_toNat, BitVec.setWidth_eq]
  rw [hopcode, ← hz, packFields_fields]

theorem encode_of_formSourceReg {mk : Source → RegField → Instr}
    (hmk : ∀ src r, encode (mk src r) = packSourceReg (BitVec.ofNat 4 n) src r)
    (h : formSourceReg w mk = .ok i) : encode i = w := by
  unfold formSourceReg at h
  split at h <;> cases h
  next src hsrc =>
    obtain ⟨hm, hg, hv⟩ := bits_of_decodeSource hsrc
    rw [hmk, packSourceReg, hm, hg, hv, encodeReg_decodeReg, packFields_of_op hz hop]

theorem encode_of_formReg {mk : RegField → Instr} (hmk : ∀ r, encode (mk r) = packReg (BitVec.ofNat 4 n) r)
    (h : formReg w mk = .ok i) : encode i = w := by
  unfold formReg at h
  split at h <;> cases h
  next hunused =>
    obtain ⟨hm, hg, hv⟩ := hunused
    have hw := packFields_of_op hz hop
    rw [hm, hg, hv] at hw
    rw [hmk, packReg, encodeReg_decodeReg, hw]

theorem encode_of_formSource {mk : Source → Instr}
    (hmk : ∀ src, encode (mk src) = packSource (BitVec.ofNat 4 n) src)
    (h : formSource w mk = .ok i) : encode i = w := by
  unfold formSource at h
  split at h
  next hr =>
    split at h <;> cases h
    next src hsrc =>
      obtain ⟨hm, hg, hv⟩ := bits_of_decodeSource hsrc
      have hw := packFields_of_op hz hop
      rw [hr] at hw
      rw [hmk, packSource, hm, hg, hv, hw]
  next => cases h

end

/-- A word that decodes is the encoding of what it decodes to: one case per opcode. -/
theorem encode_of_decodeWord {w : Word} {i : Instr} (h : decodeWord w = .ok i) : encode i = w := by
  unfold decodeWord at h
  split at h
  next => cases h
  next =>
    split at h
    next => cases h
    next hsbz =>
      have hz : sbzOf w = 0 := not_not.mp hsbz
      split at h
      next hop => exact encode_of_formSourceReg hz hop (fun _ _ => rfl) h
      next hop => exact encode_of_formSourceReg hz hop (fun _ _ => rfl) h
      next hop => exact encode_of_formSourceReg hz hop (fun _ _ => rfl) h
      next hop => exact encode_of_formSourceReg hz hop (fun _ _ => rfl) h
      next hop => exact encode_of_formSourceReg hz hop (fun _ _ => rfl) h
      next hop => exact encode_of_formReg hz hop (fun _ => rfl) h
      next hop => exact encode_of_formReg hz hop (fun _ => rfl) h
      next hop => exact encode_of_formSourceReg hz hop (fun _ _ => rfl) h
      next hop => exact encode_of_formSourceReg hz hop (fun _ _ => rfl) h
      next hop => exact encode_of_formSourceReg hz hop (fun _ _ => rfl) h
      next hop => exact encode_of_formSourceReg hz hop (fun _ _ => rfl) h
      next hop => exact encode_of_formReg hz hop (fun _ => rfl) h
      next hop => exact encode_of_formSource hz hop (fun _ => rfl) h
      next hop => exact encode_of_formSourceReg hz hop (fun _ _ => rfl) h
      next hop => exact encode_of_formSourceReg hz hop (fun _ _ => rfl) h
      next => cases h

/-! ### Illegal words (R67 to R69) -/

/-- The laws of the encoded fields, for every instruction at once. -/
theorem encodedFields : ∀ i : Instr, Laws.EncodedFields.Statement i
  | .mov src dst => Laws.EncodedFields.mov src dst
  | .add src dst => Laws.EncodedFields.add src dst
  | .sub src dst => Laws.EncodedFields.sub src dst
  | .mul src dst => Laws.EncodedFields.mul src dst
  | .div src dst => Laws.EncodedFields.div src dst
  | .inc dst => Laws.EncodedFields.inc dst
  | .dec dst => Laws.EncodedFields.dec dst
  | .rol dst amount => Laws.EncodedFields.rol dst amount
  | .ror dst amount => Laws.EncodedFields.ror dst amount
  | .shl dst amount => Laws.EncodedFields.shl dst amount
  | .shr dst amount => Laws.EncodedFields.shr dst amount
  | .inp dst => Laws.EncodedFields.inp dst
  | .out src => Laws.EncodedFields.out src
  | .store src addr => Laws.EncodedFields.store src addr
  | .load dst addr => Laws.EncodedFields.load dst addr

theorem not_illegalWord_encode (i : Instr) : ¬ illegalWord (encode i) := by
  obtain ⟨_, _, hlegal⟩ := encodedFields i
  exact hlegal

theorem not_illegalWord_of_decodeWord {w : Word} {i : Instr} (h : decodeWord w = .ok i) : ¬ illegalWord w :=
  encode_of_decodeWord h ▸ not_illegalWord_encode i

theorem decodeWord_rejects_illegalWord {w : Word} (h : illegalWord w) : ∃ r, decodeWord w = .error r := by
  cases hd : decodeWord w with
  | error r => exact ⟨r, rfl⟩
  | ok i => exact absurd h (not_illegalWord_of_decodeWord hd)

/-- A rejected word is abandoned with code 1, `InvalidInstruction`. -/
theorem step_of_rejected {s : State} {w : Word} {r : DecodeReject} (hr : s.ports.rst = false)
    (hp : s.phase = .execute w) (hd : decodeWord w = .error r) : step s = .next (abandoned s 1) := by
  simp [step, hr, hp, runWord, hd, abandonWord, takeError_eq_abandoned, errorCode]

/-! ### The statements -/

/-- Settles O35: a word that decodes is an encoding, and no encoding is illegal, so an illegal word is rejected. -/
theorem reservedWordsAreAbandoned : Obligations.ReservedWordsAreAbandoned := by
  intro s w hr hp hillegal
  obtain ⟨r, hd⟩ := decodeWord_rejects_illegalWord hillegal
  exact step_of_rejected hr hp hd

end Sys2Proof.Machine

/-! SUPPORT. The statements of the common execution rules (spec/40_execution_common.md): the flag policy, and the flags
cleared when the report is accepted. -/

namespace Sys2Proof.Machine

/-! ### The policy's value (R87) -/

/-- Inside [0,255] the byte that is committed is the exact result. -/
theorem toNat_policy_of_inRange {t : Int} (h0 : 0 ≤ t) (h1 : t ≤ 255) : ((policy t).1.toNat : Int) = t := by
  rcases h0.eq_or_lt with rfl | hpos
  · rw [policy_zero]
    rfl
  · rw [policy_inRange hpos h1, BitVec.toNat_ofInt]
    omega

/-! ### Accepting a transfer and sending a report -/

@[simp] theorem acceptTransfer_flags (s : State) : (acceptTransfer s).flags = s.flags := by
  unfold acceptTransfer
  split <;> rfl

/-- A report either waits for the host, or it is sent, the flags are cleared, and the machine leaves the phase. -/
theorem sendReport_cases (final : Bool) (s : State) :
    (s.ports.repReady = false ∧ sendReport final s = s) ∨
    (s.ports.repReady = true ∧ sendReport final s =
      { s with
        flags := Flags.clear
        phase := if final then .ended else .idle false
        ports := { s.ports with reports := s.ports.reports ++ [reportOf final s] } }) := by
  unfold sendReport
  cases s.ports.repReady with
  | true => exact .inr ⟨rfl, rfl⟩
  | false => exact .inl ⟨rfl, rfl⟩

theorem step_of_report {s : State} {final : Bool} (hr : s.ports.rst = false) (hp : s.phase = .report final) :
    step s = .next (sendReport final s) := by
  simp [step, hr, hp]

/-! ### The flags are set only while their own report waits (R34, R82) -/

/-- Outside the wait of a per-instruction report the flags are clear: the last clause of `StateInv`, which needs none of
the others to be kept. -/
def FlagsTransient (s : State) : Prop := s.phase ≠ .report false → s.flags = Flags.clear

/-- Where no per-instruction report waits before, a state with the same flags keeps them clear. -/
theorem FlagsTransient.of_flags_kept {s t : State} (hs : FlagsTransient s) (hp : s.phase ≠ .report false)
    (hkept : t.flags = s.flags) : FlagsTransient t :=
  fun _ => hkept.trans (hs hp)

theorem flagsTransient_of_report {t : State} (hp : t.phase = .report false) : FlagsTransient t :=
  fun hn => absurd hp hn

theorem flagsTransient_of_clear {t : State} (hf : t.flags = Flags.clear) : FlagsTransient t := fun _ => hf

/-- An instruction that sets the flags ends in its report; every other effect leaves them. -/
theorem FlagsTransient.of_effect {i : Instr} {s t : State} (hs : FlagsTransient s) (hp : s.phase ≠ .report false)
    (h : Effect i s t) : FlagsTransient t := by
  rcases h.flags_kept_or_committed with hkept | ⟨_, n, x, rfl⟩
  · exact hs.of_flags_kept hp hkept
  · exact flagsTransient_of_report rfl

/-- Serving the wait of an `IN` sets the flags and ends in its report. -/
theorem FlagsTransient.of_awaitInput {s : State} {n : Reg} (hs : FlagsTransient s) (hp : s.phase = .waitIn n) :
    FlagsTransient (awaitInput n s) := by
  rcases awaitInput_flags hp with ⟨_, hkept⟩ | ⟨hreport, _⟩
  · exact hs.of_flags_kept (by simp [hp]) hkept
  · exact flagsTransient_of_report hreport

/-- A report that still waits changes nothing; one that is sent clears the flags. -/
theorem FlagsTransient.of_sendReport {s : State} (hs : FlagsTransient s) (final : Bool) :
    FlagsTransient (sendReport final s) := by
  rcases sendReport_cases final s with ⟨_, hstay⟩ | ⟨_, hsend⟩
  · rwa [hstay]
  · exact flagsTransient_of_clear (by rw [hsend])

theorem FlagsTransient.of_step {s t : State} (hs : FlagsTransient s) (h : step s = .next t) : FlagsTransient t := by
  cases stepEffect_of_step h with
  | reset => exact flagsTransient_of_clear (applyReset_flags s)
  | resetCycle _ hp => exact hs.of_flags_kept (by simp [hp]) (endResetCycle_flags s)
  | accept _ hp => exact hs.of_flags_kept (by simp [hp]) (acceptTransfer_flags s)
  | abandon => exact flagsTransient_of_report rfl
  | run w i _ _ hp _ he => exact hs.of_effect (by simp [hp]) he
  | input n _ hp => exact hs.of_awaitInput hp
  | output v _ hp => exact hs.of_flags_kept (by simp [hp]) (awaitOutput_flags v s)
  | report final => exact hs.of_sendReport final
  | ended => exact hs

theorem flagsTransient_of_reachable {s : State} (h : Reachable s) : FlagsTransient s :=
  reachable_of_invariant (P := FlagsTransient) (flagsTransient_of_clear rfl) (fun _ _ hs hst => hs.of_step hst)
    (fun _ _ hs => hs) s h

/-! ### The statements -/

/-- Settles O43: an accepted report is sent with the flags cleared, and on every run they are transient. -/
theorem flagsClearedAfterReport : Obligations.FlagsClearedAfterReport := by
  refine ⟨fun s hr hp hready => ?_, fun s w hreach hp => flagsTransient_of_reachable hreach (by simp [hp])⟩
  rcases sendReport_cases false s with ⟨hwait, _⟩ | ⟨_, hsend⟩
  · simp [hready] at hwait
  · exact ⟨_, (step_of_report hr hp).trans (congrArg _ hsend), rfl, rfl⟩

/-- Settles O5: one case of the policy for each range. -/
theorem policySaturates : Obligations.PolicySaturates := by
  refine fun t => ⟨policy_overflow, policy_underflow, ?_, fun h0 h1 => ⟨toNat_policy_of_inRange (by omega) h1, ?_⟩⟩
  · rintro rfl
    exact policy_zero
  · rw [policy_inRange (by omega) h1]
    rfl

end Sys2Proof.Machine

/-! SUPPORT. The statements of MOV (spec/41_mov.md), from the rules that every `op S, Rd` shares. -/

namespace Sys2Proof.Machine

/-! ### A word of the form `op S, Rd` decodes to its operands (R62, R66) -/

/-- The form reads back the S operand and the register operand that were packed, under any opcode. -/
theorem formSourceReg_packSourceReg (op : BitVec 4) (src : Source) (r : RegField) (mk : Source → RegField → Instr) :
    formSourceReg (packSourceReg op src r) mk = .ok (mk src r) := by
  simp [formSourceReg, packSourceReg]

theorem encodedAs_mov (src : Source) (dst : RegField) : Claims.EncodedAs 1 src dst (.mov src dst) := by
  have hform : decodeWord (packSourceReg 1 src dst) = formSourceReg (packSourceReg 1 src dst) .mov := by
    simp [decodeWord, packSourceReg]
  exact hform.trans (formSourceReg_packSourceReg 1 src dst .mov)

/-! ### The three ends of `op S, Rd`, in the order of its checks (R97, R99) -/

theorem sourceToReg_of_valueFails (f : Int → Int → Except ErrorCause Int) {s : State} {src : Source} {e : ErrorCause}
    (h : ValueFails s src e) (dst : RegField) : sourceToReg f src dst s = .error e := by
  simp only [sourceToReg, resolveValue_error h]

theorem sourceToReg_invalid (f : Int → Int → Except ErrorCause Int) {s : State} {src : Source} {v : Int}
    (h : HasValue s src v) : sourceToReg f src .invalid s = .error .invalidDestination := by
  simp only [sourceToReg, resolveValue_ok.mpr h, checkReg_invalid]

theorem sourceToReg_reg {f : Int → Int → Except ErrorCause Int} {s : State} {src : Source} {n : Reg} {v t : Int}
    (h : HasValue s src v) (hf : f (regValue s n) v = .ok t) :
    sourceToReg f src (.reg n) s = .ok (writeResult n t s) := by
  simp only [sourceToReg, resolveValue_ok.mpr h, checkReg_reg, hf]

/-- An instruction encoded as `op S, Rd` and run by `sourceToReg`, with an operation that never fails, meets the rule of
that shape. -/
theorem sourceToRegRule_of_exec {op : BitVec 4} {mk : Source → RegField → Instr} {result : Int → Int → Int}
    (hencoded : ∀ src dst, Claims.EncodedAs op src dst (mk src dst))
    (hexec : ∀ src dst s, exec (mk src dst) s = settle s (sourceToReg (fun d v => .ok (result d v)) src dst s)) :
    Claims.SourceToRegRule op mk result := by
  refine fun s src dst => ⟨hencoded src dst, ?_, fun e he => ?_, ?_⟩
  · rintro n v rfl hv
    rw [hexec, sourceToReg_reg hv rfl, settle_ok, complete_writeResult, regValue]
  · rw [hexec, sourceToReg_of_valueFails _ he, settle_error, takeError_eq_abandoned]
  · rintro v rfl hv
    rw [hexec, sourceToReg_invalid _ hv, settle_error, takeError_eq_abandoned, errorCode]

/-! ### What a committed result in [0,255] leaves (R87) -/

@[simp] theorem readReg_committedResult_same (s : State) (n : Reg) (t : Int) :
    readReg (committedResult s n t) n = (policy t).1 := readReg_writeResult_same n t s

/-- Inside [0,255] the policy sets no flag but `ZF`, and that for 0 alone. -/
theorem policy_flags_of_inRange {t : Int} (h0 : 0 ≤ t) (h1 : t ≤ 255) :
    (policy t).2 = { cf := false, of := false, uf := false, zf := decide (t = 0) } := by
  rcases h0.eq_or_lt with rfl | hpos
  · rfl
  · rw [policy_inRange hpos h1, decide_eq_false hpos.ne']
    rfl

/-! ### The statements -/

/-- Settles O8: MOV is the shape `op S, Rd` whose result is S's value. -/
theorem movCopiesThroughPolicy : Obligations.MovCopiesThroughPolicy :=
  sourceToRegRule_of_exec encodedAs_mov fun _ _ _ => rfl

/-- Settles O9: the literal is committed by O8, and in [0,255] the policy keeps it. -/
theorem movLiteralReadsBack : Obligations.MovLiteralReadsBack := by
  intro s n v h0 h1
  obtain ⟨_, hcommit, _⟩ := movCopiesThroughPolicy s (.imm v) (.reg n)
  refine ⟨committedResult s n v.toInt, hcommit n v.toInt rfl (.imm v), ?_, ?_⟩
  · rw [readReg_committedResult_same, toNat_policy_of_inRange h0 h1]
  · have hzero : v.toInt = 0 ↔ v = 0 := BitVec.toInt_inj (y := 0)
    simp only [committedResult, committed, policy_flags_of_inRange h0 h1, hzero]

end Sys2Proof.Machine

/-! SUPPORT. The statements of the arithmetic instructions (spec/42_arithmetic.md): ADD, SUB and MUL by the one
rule of `op S, Rd`, DIV with the error of a zero divisor, INC and DEC from the one result each commits. -/

namespace Sys2Proof.Machine

/-! ### Decoding an encoded instruction (R62 to R67, R70) -/

/-- The form reads back the register operand that was packed, under any opcode. -/
theorem formReg_packReg (op : BitVec 4) (r : RegField) (mk : RegField → Instr) :
    formReg (packReg op r) mk = .ok (mk r) := by
  simp [formReg, packReg]

/-- The form reads back the S operand that was packed, under any opcode. -/
theorem formSource_packSource (op : BitVec 4) (src : Source) (mk : Source → Instr) :
    formSource (packSource op src) mk = .ok (mk src) := by
  simp [formSource, packSource]

/-- The opcode of `encode i` leads the decoder to the form that `i` was packed in, and the form reads `i` back. -/
theorem decodeWord_encode (i : Instr) : decodeWord (encode i) = .ok i := by
  obtain ⟨hop, hsbz, _⟩ := encodedFields i
  cases i <;>
    simp only [decodeWord, hop, hsbz] <;>
    simp [Instr.opBits, encode, formSourceReg_packSourceReg, formReg_packReg, formSource_packSource]

/-! ### DIV's zero divisor (R103, D13) -/

theorem divide_zero (d : Int) : divide d 0 = .error .divisionByZero := rfl

theorem divide_of_ne_zero (d : Int) {v : Int} (h : v ≠ 0) : divide d v = .ok (d.tdiv v) := if_neg h

/-- An operation that fails is reached only when both operands are good, and its error is the instruction's. -/
theorem sourceToReg_of_resultFails {f : Int → Int → Except ErrorCause Int} {s : State} {src : Source} {n : Reg} {v : Int}
    {e : ErrorCause} (h : HasValue s src v) (hf : f (regValue s n) v = .error e) :
    sourceToReg f src (.reg n) s = .error e := by
  simp only [sourceToReg, resolveValue_ok.mpr h, checkReg_reg, hf]

/-! ### The two ends of INC and DEC (R104 to R106) -/

theorem exec_inc_invalid (s : State) : exec (.inc .invalid) s = .next (abandoned s 2) := rfl

theorem exec_dec_invalid (s : State) : exec (.dec .invalid) s = .next (abandoned s 2) := rfl

theorem exec_inc_reg (n : Reg) (s : State) :
    exec (.inc (.reg n)) s = .next (committedResult s n ((readReg s n).toNat + 1)) := rfl

theorem exec_dec_reg (n : Reg) (s : State) :
    exec (.dec (.reg n)) s = .next (committedResult s n ((readReg s n).toNat - 1)) := rfl

/-! ### What a result commits: out of range, and a byte's value (R87) -/

theorem committedResult_overflow (s : State) (n : Reg) {t : Int} (h : 255 < t) :
    committedResult s n t = committed s n 0 { cf := true, of := true, uf := false, zf := true } := by
  rw [committedResult, policy_overflow h, Flags.overflow]

theorem committedResult_underflow (s : State) (n : Reg) {t : Int} (h : t < 0) :
    committedResult s n t = committed s n 255 { cf := false, of := false, uf := true, zf := false } := by
  rw [committedResult, policy_underflow h, Flags.underflow]

/-- An exact result that is the value of a byte commits that byte, with `ZF` exactly for 0. -/
theorem committedResult_of_toNat (s : State) (n : Reg) {t : Int} {b : Byte} (h : (b.toNat : Int) = t) :
    committedResult s n t = committed s n b { cf := false, of := false, uf := false, zf := decide (b = 0) } := by
  subst h
  rw [committedResult, policy_byte]
  by_cases hb : b = 0
  · rw [if_pos hb, decide_eq_true hb, Flags.zero]
  · rw [if_neg hb, decide_eq_false hb, Flags.clear]

/-! ### The statements -/

/-- Settles O16: from 0 the exact result is negative, else it is the value of the byte before, which is 0 for 1 alone. -/
theorem decSubtractsOne : Obligations.DecSubtractsOne := by
  refine fun s dst => ⟨decodeWord_encode (.dec dst), ?_, ?_, ?_⟩
  · rintro rfl
    exact exec_dec_invalid s
  · rintro n rfl h0
    rw [exec_dec_reg, committedResult_underflow]
    simp [h0]
  · rintro n rfl h0
    have hvalue : ((readReg s n - 1).toNat : Int) = (readReg s n).toNat - 1 := by bv_omega
    have hzero : readReg s n - 1 = 0 ↔ readReg s n = 1 := by bv_omega
    simp only [exec_dec_reg, committedResult_of_toNat s n hvalue, hzero]

/-- Settles O10: ADD is the shape `op S, Rd` whose result is the sum. -/
theorem addCommitsSum : Obligations.AddCommitsSum :=
  sourceToRegRule_of_exec (fun src dst => decodeWord_encode (.add src dst)) fun _ _ _ => rfl

/-- Settles O11: SUB is the shape `op S, Rd` whose result is the destination minus the source. -/
theorem subCommitsDifference : Obligations.SubCommitsDifference :=
  sourceToRegRule_of_exec (fun src dst => decodeWord_encode (.sub src dst)) fun _ _ _ => rfl

/-- Settles O12: MUL is the shape `op S, Rd` whose result is the product. -/
theorem mulCommitsProduct : Obligations.MulCommitsProduct :=
  sourceToRegRule_of_exec (fun src dst => decodeWord_encode (.mul src dst)) fun _ _ _ => rfl

/-- Settles O13: DIV has the shape `op S, Rd`, and `divide` fails for 0 alone, after every operand error. -/
theorem divCommitsQuotient : Obligations.DivCommitsQuotient := by
  refine fun s src dst => ⟨decodeWord_encode (.div src dst), ?_, ?_, fun e he => ?_, ?_⟩
  · rintro n v rfl hv hne
    exact congrArg (settle s) (sourceToReg_reg hv (divide_of_ne_zero _ hne))
  · rintro n rfl hv
    exact congrArg (settle s) (sourceToReg_of_resultFails hv (divide_zero _))
  · exact congrArg (settle s) (sourceToReg_of_valueFails divide he dst)
  · rintro v rfl hv
    exact congrArg (settle s) (sourceToReg_invalid divide hv)

/-- Settles O15: from 255 the exact result overflows, else it is the value of the next byte, which is never 0. -/
theorem incAddsOne : Obligations.IncAddsOne := by
  refine fun s dst => ⟨decodeWord_encode (.inc dst), ?_, ?_, ?_⟩
  · rintro rfl
    exact exec_inc_invalid s
  · rintro n rfl hmax
    rw [exec_inc_reg, committedResult_overflow]
    simp [hmax]
  · rintro n rfl hmax
    have hvalue : ((readReg s n + 1).toNat : Int) = (readReg s n).toNat + 1 := by bv_omega
    have hnonzero : readReg s n + 1 ≠ 0 := by bv_omega
    rw [exec_inc_reg, committedResult_of_toNat s n hvalue, decide_eq_false hnonzero]

end Sys2Proof.Machine

/-! SUPPORT. The statements of the rotates and shifts (spec/43_rotate_shift.md): each result is the value of the library's
operation on an 8-bit vector, whose bits are known, and the four share the order of their checks. -/

namespace Sys2Proof.Machine

/-! ### The result as an operation on 8-bit vectors (R109 to R112) -/

/-- `& 0xFF` is the residue modulo 256 (R16). -/
theorem lowByte_eq_mod (t : Nat) : lowByte t = t % 2 ^ 8 := Nat.and_two_pow_sub_one_eq_mod t 8

theorem rotateLeft_eq_toNat (v : Byte) (k : Nat) : rotateLeft v k = (v.rotateLeft k).toNat := by
  have hlow : v.toNat >>> (8 - k % 8) % 2 ^ 8 = v.toNat >>> (8 - k % 8) :=
    Nat.mod_eq_of_lt ((Nat.shiftRight_le _ _).trans_lt v.isLt)
  rw [rotateLeft, lowByte_eq_mod, Nat.or_mod_two_pow, hlow, BitVec.toNat_rotateLeft]

theorem rotateRight_eq_toNat (v : Byte) (k : Nat) : rotateRight v k = (v.rotateRight k).toNat := by
  have hlow : v.toNat >>> (k % 8) % 2 ^ 8 = v.toNat >>> (k % 8) :=
    Nat.mod_eq_of_lt ((Nat.shiftRight_le _ _).trans_lt v.isLt)
  rw [rotateRight, lowByte_eq_mod, Nat.or_mod_two_pow, hlow, BitVec.toNat_rotateRight]

/-- An amount of 8 or more needs no case of its own: the vector's shift leaves nothing either. -/
theorem shiftLeft_eq_toNat (v : Byte) (k : Nat) : shiftLeft v k = (v <<< k).toNat := by
  unfold shiftLeft
  split
  next hall => rw [BitVec.shiftLeft_eq_zero hall, BitVec.toNat_zero]
  next => rw [lowByte_eq_mod, BitVec.toNat_shiftLeft]

theorem shiftRight_eq_toNat (v : Byte) (k : Nat) : shiftRight v k = (v >>> k).toNat := by
  unfold shiftRight
  split
  next hall => rw [BitVec.ushiftRight_eq_zero hall, BitVec.toNat_zero]
  next => rw [BitVec.toNat_ushiftRight]

/-! ### Where each bit goes (R109 to R112) -/

/-- A bit either stays below position 8 or comes round to the bottom. -/
theorem getLsbD_rotateLeft_add_mod (v : Byte) (k : Nat) {i : Nat} (hi : i < 8) :
    (v.rotateLeft k).getLsbD ((i + k) % 8) = v.getLsbD i := by
  rw [BitVec.getLsbD_rotateLeft]
  rcases Nat.lt_or_ge (i + k % 8) 8 with hstay | hround
  · have hpos : (i + k) % 8 = i + k % 8 := by omega
    simp [hpos, hstay]
  · have hpos : (i + k) % 8 = i + k % 8 - 8 := by omega
    have hfrom : 8 - k % 8 + (i + k % 8 - 8) = i := by omega
    have hbelow : i + k % 8 - 8 < k % 8 := by omega
    simp [hpos, hfrom, hbelow]

/-- A bit comes from above it, or from the bottom once the position runs past bit 7. -/
theorem getLsbD_rotateRight_eq_add_mod (v : Byte) (k : Nat) {i : Nat} (hi : i < 8) :
    (v.rotateRight k).getLsbD i = v.getLsbD ((i + k) % 8) := by
  rw [BitVec.getLsbD_rotateRight]
  rcases Nat.lt_or_ge i (8 - k % 8) with habove | hround
  · have hpos : k % 8 + i = (i + k) % 8 := by omega
    simp [habove, hpos]
  · have hpos : i - (8 - k % 8) = (i + k) % 8 := by omega
    simp [hround.not_gt, hi, hpos]

theorem getLsbD_shiftLeft_of_lt (v : Byte) (k : Nat) {i : Nat} (hi : i < 8) :
    (v <<< k).getLsbD i = (decide (k ≤ i) && v.getLsbD (i - k)) := by
  have hfilled : (!decide (i < k)) = decide (k ≤ i) := by rw [← decide_not, decide_eq_decide, not_lt]
  rw [BitVec.getLsbD_shiftLeft, decide_eq_true hi, Bool.true_and, hfilled]

/-- Past bit 7 there is nothing to take. -/
theorem getLsbD_shiftRight_eq_and (v : Byte) (k i : Nat) :
    (v >>> k).getLsbD i = (decide (i + k < 8) && v.getLsbD (i + k)) := by
  rw [BitVec.getLsbD_ushiftRight, Nat.add_comm k i]
  by_cases hin : i + k < 8
  · simp [hin]
  · simp [hin, BitVec.getLsbD_of_ge v (i + k) (not_lt.mp hin)]

/-! ### The four ends of a rotate or shift, in the order of its checks (R108) -/

section
variable (f : Byte → Nat → Nat) {s : State} {amount : Source}

theorem moveBits_invalid : moveBits f .invalid amount s = .error .invalidRegister := rfl

theorem moveBits_of_valueFails (n : Reg) {e : ErrorCause} (h : ValueFails s amount e) :
    moveBits f (.reg n) amount s = .error e := by
  simp only [moveBits, checkReg_reg, resolveValue_error h]

theorem moveBits_of_negative (n : Reg) {k : Int} (h : HasValue s amount k) (hk : k < 0) :
    moveBits f (.reg n) amount s = .error .invalidOperand := by
  simp only [moveBits, checkReg_reg, resolveValue_ok.mpr h, if_pos hk]

theorem moveBits_reg (n : Reg) {k : Int} (h : HasValue s amount k) (hk : 0 ≤ k) :
    moveBits f (.reg n) amount s = .ok (writeResult n (f (readReg s n) k.toNat : Nat) s) := by
  simp only [moveBits, checkReg_reg, resolveValue_ok.mpr h, if_neg hk.not_gt]

end

/-- An instruction encoded as `op Rd, S` and run by `moveBits`, with the value of the byte `g v k` as its result, meets the
rule of that shape for every relation between `v`, `k` and `g v k`. -/
theorem bitMoveRule_of_exec {op : BitVec 4} {mk : RegField → Source → Instr} {moved : Byte → Nat → Byte → Prop}
    {f : Byte → Nat → Nat} {g : Byte → Nat → Byte}
    (hencoded : ∀ dst amount, Claims.EncodedAs op amount dst (mk dst amount))
    (hexec : ∀ dst amount s, exec (mk dst amount) s = settle s (moveBits f dst amount s))
    (hresult : ∀ v k, f v k = (g v k).toNat) (hmoved : ∀ v k, moved v k (g v k)) :
    Claims.BitMoveRule op mk moved := by
  refine fun s dst amount => ⟨hencoded dst amount, ?_, ?_, ?_, ?_⟩
  · rintro n k rfl hv hk
    refine ⟨g (readReg s n) k.toNat, hmoved _ _, ?_⟩
    rw [hexec, moveBits_reg f n hv hk, settle_ok, complete_writeResult, hresult, committedResult_of_toNat s n rfl]
  · rintro rfl
    rw [hexec, moveBits_invalid, settle_error, takeError_eq_abandoned, errorCode]
  · rintro n e rfl he
    rw [hexec, moveBits_of_valueFails f n he, settle_error, takeError_eq_abandoned]
  · rintro n k rfl hv hk
    rw [hexec, moveBits_of_negative f n hv hk, settle_error, takeError_eq_abandoned, errorCode]

/-! ### The statements -/

/-- Settles O18: ROL is the shape `op Rd, S` whose result is the byte rotated left. -/
theorem rolRotatesLeft : Obligations.RolRotatesLeft :=
  bitMoveRule_of_exec (fun dst amount => decodeWord_encode (.rol dst amount)) (fun _ _ _ => rfl) rotateLeft_eq_toNat
    fun v k _ => getLsbD_rotateLeft_add_mod v k

/-- Settles O19: ROR is the shape `op Rd, S` whose result is the byte rotated right. -/
theorem rorRotatesRight : Obligations.RorRotatesRight :=
  bitMoveRule_of_exec (fun dst amount => decodeWord_encode (.ror dst amount)) (fun _ _ _ => rfl) rotateRight_eq_toNat
    fun v k _ => getLsbD_rotateRight_eq_add_mod v k

/-- Settles O20: SHL is the shape `op Rd, S` whose result is the byte shifted left, by any amount. -/
theorem shlShiftsLeft : Obligations.ShlShiftsLeft :=
  bitMoveRule_of_exec (fun dst amount => decodeWord_encode (.shl dst amount)) (fun _ _ _ => rfl) shiftLeft_eq_toNat
    fun v k _ => getLsbD_shiftLeft_of_lt v k

/-- Settles O21: SHR is the shape `op Rd, S` whose result is the byte shifted right, by any amount. -/
theorem shrShiftsRight : Obligations.ShrShiftsRight :=
  bitMoveRule_of_exec (fun dst amount => decodeWord_encode (.shr dst amount)) (fun _ _ _ => rfl) shiftRight_eq_toNat
    fun v k i _ => getLsbD_shiftRight_eq_and v k i

end Sys2Proof.Machine

/-! SUPPORT. The statements of STORE and LOAD (spec/45_load_store.md): both check the register, then the address operand,
then the bounds, so each has the same four ends. -/

namespace Sys2Proof.Machine

theorem settle_error_eq_abandoned (s : State) (e : ErrorCause) :
    settle s (.error e) = .next (abandoned s (errorCode e)) := rfl

/-! ### The ends of STORE, in the order of its checks (R119) -/

theorem exec_store (src : RegField) (addr : Source) (s : State) :
    exec (.store src addr) s = settle s (storeReg src addr s) := rfl

theorem storeReg_invalid (addr : Source) (s : State) : storeReg .invalid addr s = .error .invalidRegister := rfl

section
variable {s : State} {addr : Source} (n : Reg)

theorem storeReg_of_addressFails {e : ErrorCause} (h : AddressFails s addr e) :
    storeReg (.reg n) addr s = .error e := by
  simp only [storeReg, checkReg_reg, resolveAddress_error h]

/-- Past the checks of its operands STORE is one bounds-checked write. -/
theorem storeReg_of_hasAddress {a : Int} (h : HasAddress s addr a) :
    storeReg (.reg n) addr s = memWrite a (readReg s n) s := by
  simp only [storeReg, checkReg_reg, resolveAddress_ok.mpr h]

end

/-- However a STORE ends, no cell changes but the one its address operand names. -/
theorem read_mem_of_exec_store {src : RegField} {addr : Source} {s t : State} {a : Int} {b : Nat}
    (h : exec (.store src addr) s = .next t) (ha : resolveAddress s addr = .ok a) (hm : Memory.wf s.mem = true)
    (hb : (b : Int) ≠ a) : Memory.read t.mem b = Memory.read s.mem b := by
  rw [exec_store] at h
  rcases storeReg_cases src addr s with ⟨n, c, _, _, hc, hstored⟩ | ⟨e, hfails⟩
  · rw [hstored] at h
    cases h
    cases hc.symm.trans ha
    have hne : b ≠ c := fun hbc => hb (congrArg _ hbc)
    exact (read_write hm c (readReg s n) b).trans (if_neg hne)
  · rw [hfails] at h
    cases h
    rfl

/-! ### The ends of LOAD, in the order of its checks (R120) -/

theorem exec_load (dst : RegField) (addr : Source) (s : State) :
    exec (.load dst addr) s = settle s (loadReg dst addr s) := rfl

theorem loadReg_invalid (addr : Source) (s : State) : loadReg .invalid addr s = .error .invalidDestination := rfl

section
variable {s : State} {addr : Source} (n : Reg)

theorem loadReg_of_addressFails {e : ErrorCause} (h : AddressFails s addr e) :
    loadReg (.reg n) addr s = .error e := by
  simp only [loadReg, checkReg_reg, resolveAddress_error h]

theorem loadReg_outside {a : Int} (h : HasAddress s addr a) (ha : a < 0 ∨ 63 < a) :
    loadReg (.reg n) addr s = .error .outOfBounds := by
  simp only [loadReg, checkReg_reg, resolveAddress_ok.mpr h, memRead_outside ha]

theorem loadReg_inside {a : Int} (h : HasAddress s addr a) (h0 : 0 ≤ a) (h1 : a ≤ 63) :
    loadReg (.reg n) addr s = .ok (writeReg n (Memory.read s.mem a.toNat) s) := by
  simp only [loadReg, checkReg_reg, resolveAddress_ok.mpr h, memRead_inside h0 h1]

end

/-- A byte written without the policy is committed with the flags as they were. -/
theorem complete_writeReg (n : Reg) (v : Byte) (s : State) :
    complete (writeReg n v s) = committed s n v s.flags := rfl

/-! ### The statements -/

/-- Settles O26: STORE's ends, the write inside the bounds setting one cell, and its frame whatever the outcome. -/
theorem storeWritesOneCell : Obligations.StoreWritesOneCell := by
  refine fun s src addr => ⟨decodeWord_encode (.store src addr), ?_, ?_, ?_, ?_, fun t a h ha hm b hb =>
    read_mem_of_exec_store h ha hm hb⟩
  · rintro rfl
    rw [exec_store, storeReg_invalid, settle_error_eq_abandoned, errorCode]
  · rintro n e rfl he
    rw [exec_store, storeReg_of_addressFails n he, settle_error_eq_abandoned]
  · rintro n a rfl ha hout
    rw [exec_store, storeReg_of_hasAddress n ha, memWrite_outside _ hout, settle_error_eq_abandoned, errorCode]
  · rintro n a rfl ha h0 h1 hm
    refine ⟨_, cellSet_write hm h0 h1 (readReg s n), ?_⟩
    rw [exec_store, storeReg_of_hasAddress n ha, memWrite_inside _ h0 h1, settle_ok, complete, endInstruction]

/-- Settles O27: LOAD's ends; inside the bounds the cell's byte is committed beside the flags as they were. -/
theorem loadReadsOneCell : Obligations.LoadReadsOneCell := by
  refine fun s dst addr => ⟨decodeWord_encode (.load dst addr), ?_, ?_, ?_, ?_⟩
  · rintro rfl
    rw [exec_load, loadReg_invalid, settle_error_eq_abandoned, errorCode]
  · rintro n e rfl he
    rw [exec_load, loadReg_of_addressFails n he, settle_error_eq_abandoned]
  · rintro n a rfl ha hout
    rw [exec_load, loadReg_outside n ha hout, settle_error_eq_abandoned, errorCode]
  · rintro n a rfl ha h0 h1
    rw [exec_load, loadReg_inside n ha h0 h1, settle_ok, complete_writeReg]

end Sys2Proof.Machine

/-! SUPPORT. The statements of the exceptions (spec/60_exceptions.md): an instruction that raises an error is abandoned as
a whole, and its report is sent like any other. -/

namespace Sys2Proof.Machine

/-- Three bits hold code 7, but no cause has it (R122). -/
theorem errorCode_ne_seven (e : ErrorCause) : errorCode e ≠ 7 := by
  cases e <;> decide

/-- In its report phase with an error code, an instruction was abandoned: what commits has code 0, and what requests input
or presents output is in its wait. -/
theorem Effect.abandoned_of_err {i : Instr} {s t : State} (h : Effect i s t) (hphase : t.phase = .report false)
    (herr : t.err ≠ 0) : ∃ e, t = abandoned s (errorCode e) := by
  cases h with
  | error e => exact ⟨e, takeError_eq_abandoned e s⟩
  | result | loaded | stored => exact absurd rfl herr
  | requested | presented => simp at hphase

/-- With the host accepting, a waiting report is sent, and the flags are cleared (R81, R82). -/
theorem step_of_report_of_repReady {s : State} {final : Bool} (hr : s.ports.rst = false) (hp : s.phase = .report final)
    (hready : s.ports.repReady = true) :
    step s = .next { s with
      flags := Flags.clear
      phase := if final then .ended else .idle false
      ports := { s.ports with reports := s.ports.reports ++ [reportOf final s] } } :=
  (step_of_report hr hp).trans (congrArg _ (if_pos hready))

/-! ### The statement -/

/-- Settles O31: the instruction was abandoned, and the report of the abandoned state shows its ERR, its PC and the
registers as before. -/
theorem errorsArePrecise : Obligations.ErrorsArePrecise := by
  intro i s t h hphase herr
  obtain ⟨e, rfl⟩ := (effect_of_exec h).abandoned_of_err hphase herr
  refine ⟨rfl, errorCode_ne_seven e, fun hr hready => ⟨reportOf false (abandoned s (errorCode e)), ?_, rfl, rfl, rfl, rfl⟩⟩
  exact step_of_report_of_repReady (s := abandoned s (errorCode e)) hr hphase hready

end Sys2Proof.Machine

/-! SUPPORT. The round trips of the encoding (spec/30_encoding.md, spec/20_memory.md section 3): as a word, as a host's
bytes, and as a word of the opcode table. -/

namespace Sys2Proof.Machine

/-! ### A word, its bytes and its number (R52) -/

/-- The four bytes of a word, put together in their order, are the word. -/
theorem wordOfBytes_extract (w : Word) :
    wordOfBytes (w.extractLsb' 0 8) (w.extractLsb' 8 8) (w.extractLsb' 16 8) (w.extractLsb' 24 8) = w := by
  ext i hi
  simp [wordOfBytes]
  grind

/-- A word that decodes is read from the front of any bytes that begin with its own, and the others are left. -/
theorem decodeBytes_bytesOfWord_append {w : Word} {i : Instr} (h : decodeWord w = .ok i) (rest : List Byte) :
    decodeBytes (bytesOfWord w ++ rest) = .ok (i, rest) := by
  simp only [bytesOfWord, List.cons_append, List.nil_append, decodeBytes, wordOfBytes_extract, h]

theorem tableWord_toNat (w : Word) : tableWord 32 w.toNat = w := by
  rw [tableWord, Nat.mod_eq_of_lt w.isLt, BitVec.ofNat_toNat, BitVec.setWidth_eq]

theorem decodeTableWord_toNat {w : Word} {i : Instr} (h : decodeWord w = .ok i) :
    decodeTableWord 32 w.toNat = some i := by
  have hbytes := decodeBytes_bytesOfWord_append h []
  rw [List.append_nil] at hbytes
  simp only [decodeTableWord, tableWord_toNat, hbytes, le_refl, if_true]

/-! ### Every word that is not illegal decodes (R69, R70) -/

theorem unusedField_of_decodeSource_error {m : BitVec 2} {g : BitVec 3} {v : Half} {r : DecodeReject}
    (h : decodeSource m g v = .error r) : (m = 0 ∨ m = 1) ∧ v ≠ 0 ∨ m = 2 ∧ g ≠ 0 := by
  unfold decodeSource at h
  split_ifs at h with h0 hv h1 hv h2 hg
  · exact .inl ⟨.inl h0, hv⟩
  · exact .inl ⟨.inr h1, hv⟩
  · exact .inr ⟨h2, hg⟩

section
variable {w : Word} {r : DecodeReject}

/-- A set field that the S operand does not use is unused in every form that has an S operand. -/
theorem unusedFieldSet_of_decodeSource_error (hop : opOf w ≠ 6 ∧ opOf w ≠ 7 ∧ opOf w ≠ 12)
    (h : decodeSource (smodeOf w) (sregOf w) (immOf w) = .error r) : unusedFieldSet w := by
  rcases unusedField_of_decodeSource_error h with ⟨hm, hv⟩ | ⟨hm, hg⟩
  · exact .inr (.inr (.inl ⟨hop, hm, hv⟩))
  · exact .inr (.inr (.inr ⟨hop, hm, hg⟩))

theorem unusedFieldSet_of_formSourceReg_error {mk : Source → RegField → Instr}
    (hop : opOf w ≠ 6 ∧ opOf w ≠ 7 ∧ opOf w ≠ 12) (h : formSourceReg w mk = .error r) : unusedFieldSet w := by
  unfold formSourceReg at h
  split at h
  next => cases h
  next hsrc => exact unusedFieldSet_of_decodeSource_error hop hsrc

theorem unusedFieldSet_of_formReg_error {mk : RegField → Instr} (hop : opOf w = 6 ∨ opOf w = 7 ∨ opOf w = 12)
    (h : formReg w mk = .error r) : unusedFieldSet w := by
  unfold formReg at h
  split at h
  next => cases h
  next hset => exact .inl ⟨hop, by tauto⟩

theorem unusedFieldSet_of_formSource_error {mk : Source → Instr} (hop : opOf w = 13)
    (h : formSource w mk = .error r) : unusedFieldSet w := by
  unfold formSource at h
  split at h
  next =>
    split at h
    next => cases h
    next hsrc => exact unusedFieldSet_of_decodeSource_error (by simp [hop]) hsrc
  next hr => exact .inr (.inl ⟨hop, hr⟩)

/-- A word that is rejected is illegal: one case per opcode. -/
theorem illegalWord_of_decodeWord_error (h : decodeWord w = .error r) : illegalWord w := by
  have hop : ∀ {n : Nat}, (opOf w).toNat = n → opOf w = BitVec.ofNat 4 n := by
    rintro n rfl
    rw [BitVec.ofNat_toNat, BitVec.setWidth_eq]
  unfold decodeWord at h
  split at h
  next hzero => exact .inl hzero
  next hnonzero =>
    split at h
    next hsbz => exact .inr (.inl hsbz)
    next =>
      refine .inr (.inr ?_)
      split at h
      iterate 5 next hn => exact unusedFieldSet_of_formSourceReg_error (by simp [hop hn]) h
      iterate 2 next hn => exact unusedFieldSet_of_formReg_error (by simp [hop hn]) h
      iterate 4 next hn => exact unusedFieldSet_of_formSourceReg_error (by simp [hop hn]) h
      next hn => exact unusedFieldSet_of_formReg_error (by simp [hop hn]) h
      next hn => exact unusedFieldSet_of_formSource_error (hop hn) h
      iterate 2 next hn => exact unusedFieldSet_of_formSourceReg_error (by simp [hop hn]) h
      next =>
        have hlt : (opOf w).toNat < 16 := (opOf w).isLt
        have hpos : (opOf w).toNat ≠ 0 := fun h0 => hnonzero (BitVec.eq_of_toNat_eq h0)
        grind

end

/-! ### The statements -/

/-- Settles O37: an encoding decodes to its instruction (`decodeWord_encode`), and so do its bytes and its number. -/
theorem decodeOfEncodeIsTheInstruction : Obligations.DecodeOfEncodeIsTheInstruction := fun i rest =>
  have hdecode := decodeWord_encode i
  ⟨hdecode, decodeBytes_bytesOfWord_append hdecode rest, decodeTableWord_toNat hdecode⟩

/-- Settles O36: what is rejected is illegal, so any other word decodes, and what decodes is an encoding. -/
theorem everyOtherWordIsAnInstruction : Obligations.EveryOtherWordIsAnInstruction := by
  intro w hlegal
  cases hd : decodeWord w with
  | error r => exact absurd (illegalWord_of_decodeWord_error hd) hlegal
  | ok i => exact ⟨i, rfl, encode_of_decodeWord hd⟩

/-- Settles O38: a word that decodes is an encoding, and no encoding is illegal. -/
theorem encodeOfDecodeIsTheWord : Obligations.EncodeOfDecodeIsTheWord := fun _ _ h =>
  ⟨encode_of_decodeWord h, not_illegalWord_of_decodeWord h⟩

/-- Settles O39: the assembler encodes the record's instruction, and gives the all-zero word when there is none. -/
theorem assembledWordsAreLegal : Obligations.AssembledWordsAreLegal := by
  intro record w h
  unfold Assembler.assemble at h
  split at h
  next => cases h
  next =>
    split at h <;> cases h
    next i hi => exact .inr ⟨⟨i, hi, decodeWord_encode i⟩, not_illegalWord_encode i⟩
    next => exact .inl rfl

/-- Settles O4: each word's fields, read off its bits, are those of the instruction of its line. -/
theorem writtenOutWordsDecode : Obligations.WrittenOutWordsDecode := by
  unfold Obligations.WrittenOutWordsDecode
  decide

end Sys2Proof.Machine

/-! SUPPORT. What every step keeps (spec/10_state.md): the record of reports stays in the order that `PC` counts, and the
memory, `ERR` and the flags stay legal. -/

namespace Sys2Proof.Machine

/-! ### The ports and `PC` through an effect -/

theorem Effect.ports_kept {i : Instr} {s t : State} (h : Effect i s t) : t.ports = s.ports := by
  cases h <;> rfl

/-- An instruction has ended, or it has entered its wait with nothing else changed. -/
theorem Effect.ended_or_waits {i : Instr} {s t : State} (h : Effect i s t) :
    (t.phase = .report false ∧ t.pc = s.pc + 1) ∨
    (∃ n, i = .inp (.reg n) ∧ t = requestInput n s) ∨ ∃ src v, i = .out src ∧ t = presentOutput v s := by
  cases h with
  | requested dst n hi hd => exact .inr (.inl ⟨n, hd ▸ hi, rfl⟩)
  | presented src v hi => exact .inr (.inr ⟨src, _, hi, rfl⟩)
  | error | result | loaded | stored => exact .inl ⟨rfl, rfl⟩

/-- In `Idle`, with nothing offered nothing happens; else the oldest transfer is accepted. -/
theorem acceptTransfer_cases (s : State) :
    (s.ports.instr = [] ∧ acceptTransfer s = s) ∨
    ∃ x rest, s.ports.instr = x :: rest ∧ acceptTransfer s =
      { s with
        phase := if x.progEnd then .report true else .execute x.word
        ports := { s.ports with instr := rest } } := by
  unfold acceptTransfer
  cases s.ports.instr with
  | nil => exact .inl ⟨rfl, rfl⟩
  | cons x rest => exact .inr ⟨x, rest, rfl, rfl⟩

/-! ### `PC`, the pending report and the record of reports through a step -/

theorem pendingReports_of_report {s : State} (h : s.phase = .report false) : pendingReports s = 1 := if_pos h

theorem pendingReports_of_ne {s : State} (h : s.phase ≠ .report false) : pendingReports s = 0 := if_neg h

/-- What a step with `rst` low does to `PC` and the record of reports. -/
inductive ReportEffect (s : State) : State → Prop
  /-- a wait that goes on, or the end of the run -/
  | stays : ReportEffect s s
  /-- no report is sent, and `PC` counts one instruction exactly when its report is then pending (R30) -/
  | works {t : State} (hp : s.phase ≠ .report false) (he : s.phase ≠ .ended) (hr : t.ports.reports = s.ports.reports)
      (hpc : t.pc = s.pc + BitVec.ofNat 16 (pendingReports t)) : ReportEffect s t
  /-- the report that waited is sent (R81, R143) -/
  | sends (final : Bool) (hp : s.phase = .report final) : ReportEffect s { s with
      flags := Flags.clear
      phase := if final then .ended else .idle false
      ports := { s.ports with reports := s.ports.reports ++ [reportOf final s] } }

section
variable {s t : State} (hp : s.phase ≠ .report false) (he : s.phase ≠ .ended)
  (hr : t.ports.reports = s.ports.reports)
include hp he hr

theorem ReportEffect.of_ended (ht : t.phase = .report false) (hpc : t.pc = s.pc + 1) : ReportEffect s t :=
  .works hp he hr (by rw [hpc, pendingReports_of_report ht]; rfl)

theorem ReportEffect.of_not_ended (ht : t.phase ≠ .report false) (hpc : t.pc = s.pc) : ReportEffect s t :=
  .works hp he hr (by rw [hpc, pendingReports_of_ne ht]; exact (BitVec.add_zero s.pc).symm)

end

theorem ReportEffect.of_effect {i : Instr} {s t : State} (hp : s.phase ≠ .report false) (he : s.phase ≠ .ended)
    (h : Effect i s t) : ReportEffect s t := by
  have hr := congrArg Ports.reports h.ports_kept
  rcases h.ended_or_waits with ⟨ht, hpc⟩ | ⟨n, _, rfl⟩ | ⟨_, v, _, rfl⟩
  · exact .of_ended hp he hr ht hpc
  · exact .of_not_ended hp he hr (by simp) rfl
  · exact .of_not_ended hp he hr (by simp) rfl

theorem ReportEffect.of_acceptTransfer {s : State} {b : Bool} (hp : s.phase = .idle b) :
    ReportEffect s (acceptTransfer s) := by
  rcases acceptTransfer_cases s with ⟨_, hstay⟩ | ⟨x, rest, _, haccept⟩
  · rw [hstay]
    exact .stays
  · rw [haccept]
    refine .of_not_ended (by simp [hp]) (by simp [hp]) rfl ?_ rfl
    cases x.progEnd <;> simp

theorem ReportEffect.of_awaitInput {s : State} {n : Reg} (hp : s.phase = .waitIn n) :
    ReportEffect s (awaitInput n s) := by
  rcases awaitInput_cases n s with ⟨_, hstay⟩ | ⟨v, rest, _, htake⟩
  · rw [hstay]
    exact .stays
  · rw [htake]
    exact .of_ended (by simp [hp]) (by simp [hp]) rfl rfl rfl

theorem ReportEffect.of_awaitOutput {s : State} {v : Half} (hp : s.phase = .waitOut v) :
    ReportEffect s (awaitOutput v s) := by
  rcases awaitOutput_cases v s with ⟨_, hstay⟩ | ⟨_, hsend⟩
  · rw [hstay]
    exact .stays
  · rw [hsend]
    exact .of_ended (by simp [hp]) (by simp [hp]) rfl rfl rfl

theorem ReportEffect.of_sendReport {s : State} {final : Bool} (hp : s.phase = .report final) :
    ReportEffect s (sendReport final s) := by
  rcases sendReport_cases final s with ⟨_, hstay⟩ | ⟨_, hsend⟩
  · rw [hstay]
    exact .stays
  · rw [hsend]
    exact .sends final hp

theorem reportEffect_of_step {s t : State} (hr : s.ports.rst = false) (h : step s = .next t) : ReportEffect s t := by
  cases stepEffect_of_step h with
  | reset hrst => simp [hr] at hrst
  | resetCycle _ hp => exact .of_not_ended (by simp [hp]) (by simp [hp]) rfl (by simp) rfl
  | accept _ hp => exact .of_acceptTransfer hp
  | abandon w _ _ hp => exact .of_ended (by simp [hp]) (by simp [hp]) rfl rfl rfl
  | run w i _ _ hp _ he => exact .of_effect (by simp [hp]) (by simp [hp]) he
  | input n _ hp => exact .of_awaitInput hp
  | output v _ hp => exact .of_awaitOutput hp
  | report final _ hp => exact .of_sendReport hp
  | ended => exact .stays

/-- `PC` advances exactly when an instruction's report becomes pending (R30). -/
theorem ReportEffect.pc {s t : State} (h : ReportEffect s t) :
    t.pc = s.pc + if t.phase = .report false ∧ s.phase ≠ .report false then 1 else 0 := by
  cases h with
  | stays => simp
  | works hp _ _ hpc =>
    rw [hpc, pendingReports]
    by_cases ht : t.phase = .report false <;> simp [ht, hp]
  | sends final => cases final <;> simp

/-! ### The reports in order (R30, R143, R144) -/

theorem getElem?_append_singleton_cases {α : Type} {l : List α} {a r : α} {k : Nat} (h : (l ++ [a])[k]? = some r) :
    l[k]? = some r ∨ k = l.length ∧ r = a := by
  rcases Nat.lt_trichotomy k l.length with hk | rfl | hk
  · rw [List.getElem?_append_left hk] at h
    exact .inl h
  · rw [List.getElem?_concat_length] at h
    exact .inr ⟨rfl, (Option.some.inj h).symm⟩
  · rw [List.getElem?_eq_none (by simp; omega)] at h
    cases h

/-- The record begins: no report yet, and `PC` is 0. -/
theorem reportsInOrder_of_empty {s : State} (hr : s.ports.reports = []) (hpc : s.pc = 0)
    (hp : s.phase ≠ .report false) : ReportsInOrder s where
  numbered k r h := by simp [hr] at h
  final k r h := by simp [hr] at h
  counted := by rw [hpc, hr, pendingReports_of_ne hp]; rfl

section
variable {s : State} (hs : ReportsInOrder s)
include hs

/-- Before `Ended` no final report has been sent. -/
theorem ReportsInOrder.final_eq_false (he : s.phase ≠ .ended) {k : Nat} {r : Report}
    (h : s.ports.reports[k]? = some r) : r.final = false := by
  cases hf : r.final with
  | false => rfl
  | true =>
    obtain ⟨_, hended, _⟩ := hs.final k r h hf
    exact absurd hended he

/-- Before `Ended` every report in the record is an instruction's. -/
theorem ReportsInOrder.filter_reports (he : s.phase ≠ .ended) :
    (s.ports.reports.filter fun r => !r.final) = s.ports.reports := by
  refine List.filter_eq_self.mpr fun r hr => ?_
  obtain ⟨k, hk⟩ := List.mem_iff_getElem?.mp hr
  simp [hs.final_eq_false he hk]

theorem ReportsInOrder.pc_of_not_ended (he : s.phase ≠ .ended) :
    s.pc = BitVec.ofNat 16 (s.ports.reports.length + pendingReports s) := by
  rw [hs.counted, hs.filter_reports he]

theorem ReportsInOrder.of_works {t : State} (hp : s.phase ≠ .report false) (he : s.phase ≠ .ended)
    (hr : t.ports.reports = s.ports.reports) (hpc : t.pc = s.pc + BitVec.ofNat 16 (pendingReports t)) :
    ReportsInOrder t where
  numbered k r h := hs.numbered k r (hr ▸ h)
  final k r h hf := by
    rw [hs.final_eq_false he (hr ▸ h)] at hf
    cases hf
  counted := by
    rw [hpc, hr, hs.counted, pendingReports_of_ne hp, Nat.add_zero, ← BitVec.ofNat_add]

/-- The report of the k-th instruction is sent: it shows `PC`, which is k (R30). -/
theorem ReportsInOrder.of_sends_instruction (hp : s.phase = .report false) {f : Flags} :
    ReportsInOrder { s with
      flags := f
      phase := .idle false
      ports := { s.ports with reports := s.ports.reports ++ [reportOf false s] } } := by
  have he : s.phase ≠ .ended := by simp [hp]
  have hpc := hs.pc_of_not_ended he
  rw [pendingReports_of_report hp] at hpc
  refine ⟨fun k r h hf => ?_, fun k r h hf => ?_, ?_⟩
  · rcases getElem?_append_singleton_cases h with hold | ⟨rfl, rfl⟩
    · exact hs.numbered k r hold hf
    · exact hpc
  · rcases getElem?_append_singleton_cases h with hold | ⟨rfl, rfl⟩
    · simp [hs.final_eq_false he hold] at hf
    · cases hf
  · rw [pendingReports_of_ne (by simp), List.filter_append, hs.filter_reports he, hpc]
    simp [reportOf]

/-- The final report is sent: it shows `PC`, the number of the instructions' reports, and is the last (R143). -/
theorem ReportsInOrder.of_sends_final (hp : s.phase = .report true) {f : Flags} :
    ReportsInOrder { s with
      flags := f
      phase := .ended
      ports := { s.ports with reports := s.ports.reports ++ [reportOf true s] } } := by
  have he : s.phase ≠ .ended := by simp [hp]
  have hpc := hs.pc_of_not_ended he
  rw [pendingReports_of_ne (by simp [hp])] at hpc
  refine ⟨fun k r h hf => ?_, fun k r h hf => ?_, ?_⟩
  · rcases getElem?_append_singleton_cases h with hold | ⟨rfl, rfl⟩
    · exact hs.numbered k r hold hf
    · cases hf
  · rcases getElem?_append_singleton_cases h with hold | ⟨rfl, rfl⟩
    · simp [hs.final_eq_false he hold] at hf
    · exact ⟨by simp, rfl, hpc, rfl, rfl⟩
  · rw [pendingReports_of_ne (by simp), List.filter_append, hs.filter_reports he, hpc]
    simp [reportOf]

theorem ReportsInOrder.of_step {t : State} (h : step s = .next t) : ReportsInOrder t := by
  cases hr : s.ports.rst with
  | true =>
    cases (step_of_rst hr).symm.trans h
    exact reportsInOrder_of_empty rfl rfl (by simp)
  | false =>
    cases reportEffect_of_step hr h with
    | stays => exact hs
    | works hp he hkept hpc => exact hs.of_works hp he hkept hpc
    | sends final hp =>
      cases final with
      | false => exact hs.of_sends_instruction hp
      | true => exact hs.of_sends_final hp

theorem ReportsInOrder.of_move (m : HostMove) : ReportsInOrder (applyMove m s) where
  numbered k r h := hs.numbered k r (movePorts_reports s.ports m ▸ h)
  final k r h hf := by
    rw [applyMove_ports, movePorts_reports] at h ⊢
    exact hs.final k r h hf
  counted := by
    rw [applyMove_ports, movePorts_reports]
    exact hs.counted

end

theorem reportsInOrder_reset : ReportsInOrder State.reset := reportsInOrder_of_empty rfl rfl (by decide)

/-! ### The memory, `ERR` and the flags stay legal (R35, R39, R40) -/

/-- The clauses of `StateInv` that do not depend on the phase. -/
structure LegalContents (s : State) : Prop where
  memory : Memory.wf s.mem = true
  errLegal : s.err ≠ 7
  flagsLegal : legalFlags s.flags

theorem legalFlags_clear : legalFlags Flags.clear := .inl rfl

section
variable {s : State} (hs : LegalContents s)
include hs

theorem LegalContents.of_kept {t : State} (hm : t.mem = s.mem) (he : t.err = s.err) (hf : t.flags = s.flags) :
    LegalContents t := ⟨hm ▸ hs.memory, he ▸ hs.errLegal, hf ▸ hs.flagsLegal⟩

theorem LegalContents.of_ports (p : Ports) : LegalContents { s with ports := p } := hs.of_kept rfl rfl rfl

theorem LegalContents.of_takeError (e : ErrorCause) : LegalContents (takeError e s) :=
  ⟨hs.memory, errorCode_ne_seven e, hs.flagsLegal⟩

theorem LegalContents.of_complete : LegalContents (complete s) := ⟨hs.memory, by simp [complete_eq], hs.flagsLegal⟩

theorem LegalContents.of_writeResult (n : Reg) (t : Int) : LegalContents (writeResult n t s) :=
  ⟨hs.memory, hs.errLegal, policy_legal t⟩

theorem LegalContents.of_effect {i : Instr} {t : State} (h : Effect i s t) : LegalContents t := by
  cases h with
  | error e => exact hs.of_takeError e
  | result n x => exact (hs.of_writeResult n x).of_complete
  | loaded _ _ n b => exact (hs.of_kept (t := writeReg n b s) rfl rfl rfl).of_complete
  | stored _ _ n c _ _ hc => exact ⟨wf_write hs.memory _ hc, by simp [complete_eq], hs.flagsLegal⟩
  | requested | presented => exact hs.of_kept rfl rfl rfl

theorem LegalContents.of_acceptTransfer : LegalContents (acceptTransfer s) := by
  rcases acceptTransfer_cases s with ⟨_, hstay⟩ | ⟨x, rest, _, haccept⟩
  · rwa [hstay]
  · rw [haccept]
    exact hs.of_kept rfl rfl rfl

theorem LegalContents.of_awaitInput (n : Reg) : LegalContents (awaitInput n s) := by
  rcases awaitInput_cases n s with ⟨_, hstay⟩ | ⟨v, rest, _, htake⟩
  · rwa [hstay]
  · rw [htake]
    exact ((hs.of_ports _).of_writeResult n _).of_complete

theorem LegalContents.of_awaitOutput (v : Half) : LegalContents (awaitOutput v s) := by
  rcases awaitOutput_cases v s with ⟨_, hstay⟩ | ⟨_, hsend⟩
  · rwa [hstay]
  · rw [hsend]
    exact (hs.of_ports _).of_complete

theorem LegalContents.of_sendReport (final : Bool) : LegalContents (sendReport final s) := by
  rcases sendReport_cases final s with ⟨_, hstay⟩ | ⟨_, hsend⟩
  · rwa [hstay]
  · rw [hsend]
    exact ⟨hs.memory, hs.errLegal, legalFlags_clear⟩

theorem LegalContents.of_step {t : State} (h : step s = .next t) : LegalContents t := by
  cases stepEffect_of_step h with
  | reset => exact ⟨wf_reset, by simp, legalFlags_clear⟩
  | resetCycle => exact hs.of_kept rfl rfl rfl
  | accept => exact hs.of_acceptTransfer
  | abandon => exact hs.of_takeError _
  | run _ _ _ _ _ _ he => exact hs.of_effect he
  | input n => exact hs.of_awaitInput n
  | output v => exact hs.of_awaitOutput v
  | report final => exact hs.of_sendReport final
  | ended => exact hs

end

theorem StateInv.legalContents {s : State} (hs : StateInv s) : LegalContents s :=
  ⟨hs.memory, hs.errLegal, hs.flagsLegal⟩

theorem LegalContents.stateInv {s : State} (hs : LegalContents s) (hf : FlagsTransient s) : StateInv s :=
  ⟨hs.memory, hs.errLegal, hs.flagsLegal, hf⟩

theorem StateInv.of_step {s t : State} (hs : StateInv s) (h : step s = .next t) : StateInv t :=
  (hs.legalContents.of_step h).stateInv (FlagsTransient.of_step hs.flagsTransient h)

theorem StateInv.of_move {s : State} (hs : StateInv s) (m : HostMove) : StateInv (applyMove m s) :=
  ⟨hs.memory, hs.errLegal, hs.flagsLegal, hs.flagsTransient⟩

theorem stateInv_reset : StateInv State.reset := ⟨wf_reset, by decide, legalFlags_clear, fun _ => rfl⟩

/-! ### The reports of a run (R35, R39) -/

/-- A step keeps the reports in the record, drops them all, or adds the one that shows its state. -/
theorem mem_reports_of_step {s t : State} (h : step s = .next t) {r : Report} (hr : r ∈ t.ports.reports) :
    r ∈ s.ports.reports ∨ ∃ final, r = reportOf final s := by
  cases hrst : s.ports.rst with
  | true =>
    cases (step_of_rst hrst).symm.trans h
    simp at hr
  | false =>
    cases reportEffect_of_step hrst h with
    | stays => exact .inl hr
    | works _ _ hkept => exact .inl (hkept ▸ hr)
    | sends final =>
      rcases List.mem_append.mp hr with hold | hnew
      · exact .inl hold
      · exact .inr ⟨final, List.mem_singleton.mp hnew⟩

theorem legalReport_reportOf {s : State} (hs : StateInv s) (final : Bool) : legalReport (reportOf final s) := by
  cases final with
  | true => exact ⟨.inl rfl, by simp [reportOf]⟩
  | false =>
    refine ⟨?_, hs.errLegal⟩
    rcases hs.flagsLegal with hf | hf | hf | hf <;>
      simp [reportOf, hf, flagBits, Flags.clear, Flags.zero, Flags.overflow, Flags.underflow]

/-- The invariant, with every report in the record legal. -/
structure LegalRun (s : State) : Prop where
  state : StateInv s
  reports : ∀ r ∈ s.ports.reports, legalReport r

theorem LegalRun.of_step {s t : State} (hs : LegalRun s) (h : step s = .next t) : LegalRun t := by
  refine ⟨hs.state.of_step h, fun r hr => ?_⟩
  rcases mem_reports_of_step h hr with hold | ⟨final, rfl⟩
  · exact hs.reports r hold
  · exact legalReport_reportOf hs.state final

theorem LegalRun.of_move {s : State} (hs : LegalRun s) (m : HostMove) : LegalRun (applyMove m s) :=
  ⟨hs.state.of_move m, fun r hr => hs.reports r (movePorts_reports s.ports m ▸ hr)⟩

/-! ### The statements -/

/-- Settles O46: a step either ends an instruction, sends the report that waited, or leaves both `PC` and the record. -/
theorem pcCountsInstructions : Obligations.PcCountsInstructions :=
  ⟨fun _ _ hr h => (reportEffect_of_step hr h).pc, fun _ _ hs h => hs.of_step h, fun m _ hs => hs.of_move m,
    reachable_of_invariant reportsInOrder_reset (fun _ _ hs h => hs.of_step h) fun m _ hs => hs.of_move m⟩

/-- Settles O47: the contents stay legal and the flags transient, each through every effect of a step. -/
theorem stepKeepsInvariant : Obligations.StepKeepsInvariant := fun _ _ hs h => hs.of_step h

/-- Settles O48: the invariant does not look at the ports, and a move changes nothing else. -/
theorem hostMovesKeepInvariant : Obligations.HostMovesKeepInvariant := fun m _ hs => ⟨hs.of_move m, rfl⟩

/-- Settles O49: every report shows a state of the run, in which the invariant holds. -/
theorem reportsShowLegalFlags : Obligations.ReportsShowLegalFlags := fun s h =>
  have hreset : LegalRun State.reset := ⟨stateInv_reset, by simp [State.reset, Ports.quiet]⟩
  have hrun : LegalRun s :=
    reachable_of_invariant hreset (fun _ _ hs hst => hs.of_step hst) (fun m _ hs => hs.of_move m) s h
  hrun.reports

/-- Settles O2: both invariants hold at reset, and `applyReset` is `State.reset` beside the host's side of the ports. -/
theorem resetStateHasInvariant : Obligations.ResetStateHasInvariant :=
  ⟨stateInv_reset, reportsInOrder_reset, fun _ hr => step_of_rst hr⟩

end Sys2Proof.Machine

/-! SUPPORT. The exact results (spec/40_execution_common.md section 4): DIV's sign table, and the ranges of the six
operations. -/

namespace Sys2Proof.Machine

/-! ### The quotient truncated toward zero, by the divisor's sign (R92) -/

theorem tdiv_eq_zero_of_lt_abs {d v : Int} (h0 : 0 ≤ d) (h : d < |v|) : d.tdiv v = 0 := by
  rcases abs_cases v with ⟨habs, _⟩ | ⟨habs, _⟩
  · exact Int.tdiv_eq_zero_of_lt h0 (habs ▸ h)
  · rw [← Int.neg_eq_zero, ← Int.tdiv_neg]
    exact Int.tdiv_eq_zero_of_lt h0 (habs ▸ h)

/-- A divisor between 0 and the dividend gives a quotient of at least 1. -/
theorem one_le_tdiv {d v : Int} (hv : 0 < v) (h : v ≤ d) : 1 ≤ d.tdiv v := by
  rw [Int.tdiv_eq_ediv_of_nonneg (by omega), Int.le_ediv_iff_mul_le hv, one_mul]
  exact h

theorem tdiv_neg_of_abs_le {d v : Int} (hv : v < 0) (h : |v| ≤ d) : d.tdiv v < 0 := by
  have hquotient : 1 ≤ d.tdiv (-v) := one_le_tdiv (by omega) (abs_of_neg hv ▸ h)
  rw [Int.tdiv_neg] at hquotient
  omega

/-- A quotient is negative exactly when the divisor is and the dividend is not smaller. -/
theorem tdiv_neg_iff {d v : Int} (h0 : 0 ≤ d) : d.tdiv v < 0 ↔ v < 0 ∧ |v| ≤ d := by
  refine ⟨fun hneg => ⟨?_, ?_⟩, fun ⟨hv, h⟩ => tdiv_neg_of_abs_le hv h⟩
  · by_contra hv
    exact absurd (Int.tdiv_nonneg h0 (not_lt.mp hv)) (not_le.mpr hneg)
  · by_contra h
    rw [tdiv_eq_zero_of_lt_abs h0 (not_le.mp h)] at hneg
    omega

/-- No quotient is larger than its dividend. -/
theorem tdiv_range {d : Int} (v : Int) (h0 : 0 ≤ d) : -d ≤ d.tdiv v ∧ d.tdiv v ≤ d := by
  have hle := Int.natAbs_tdiv_le_natAbs d v
  omega

/-! ### The ranges of the operands and of the exact results (R90, R91) -/

theorem readReg_toNat_le (s : State) (n : Reg) : ((readReg s n).toNat : Int) ≤ 255 := by
  have hlt : (readReg s n).toNat < 256 := (readReg s n).isLt
  omega

/-- A data operand's value is a 16-bit literal or a byte. -/
theorem HasValue.range {s : State} {src : Source} {v : Int} (h : HasValue s src v) : -32768 ≤ v ∧ v ≤ 32767 := by
  cases h with
  | reg n =>
    have hle := readReg_toNat_le s n
    omega
  | ind n =>
    have hlt : (Memory.read s.mem (readReg s n).toNat).toNat < 256 := (Memory.read s.mem (readReg s n).toNat).isLt
    omega
  | imm w => exact ⟨BitVec.le_toInt w, by have hlt := BitVec.toInt_lt (x := w); omega⟩

theorem exactResult_of_exec {i : Instr} {s : State} {n : Reg} {t lo hi : Int}
    (h : exec i s = .next (committedResult s n t)) (hrange : lo ≤ t ∧ t ≤ hi) (hlo : -(2 ^ 24) ≤ lo)
    (hhi : hi < 2 ^ 24) : Claims.ExactResult i s n t lo hi :=
  ⟨h, hrange.1, hrange.2, hlo.trans hrange.1, hrange.2.trans_lt hhi,
    fun hover => h.trans (congrArg _ (committedResult_overflow s n hover)),
    fun hunder => h.trans (congrArg _ (committedResult_underflow s n hunder))⟩

theorem mul_range {d v : Int} (h0 : 0 ≤ d) (h1 : d ≤ 255) (hv : -32768 ≤ v ∧ v ≤ 32767) :
    -8355840 ≤ d * v ∧ d * v ≤ 8355585 := by
  have hlo : d * -32768 ≤ d * v := Int.mul_le_mul_of_nonneg_left hv.1 h0
  have hhi : d * v ≤ d * 32767 := Int.mul_le_mul_of_nonneg_left hv.2 h0
  omega

/-! ### The statements -/

/-- Settles O14: DIV commits the truncated quotient (O13), which is 0, at least 1, or negative by the divisor's sign. -/
theorem divSignTable : Obligations.DivSignTable := by
  intro s src n v hv
  obtain ⟨_, hquotient, hzero, _⟩ := divCommitsQuotient s src (.reg n)
  have hd0 : (0 : Int) ≤ (readReg s n).toNat := Int.natCast_nonneg _
  have hd1 := readReg_toNat_le s n
  refine ⟨?_, fun hne hlt => ?_, fun hpos hle => ?_, fun hneg hle => ?_⟩
  · rintro rfl
    exact hzero n rfl hv
  · rw [hquotient n v rfl hv hne, tdiv_eq_zero_of_lt_abs hd0 hlt, committedResult, policy_zero, Flags.zero]
  · have hq1 := one_le_tdiv hpos hle
    have hq255 : Int.tdiv (readReg s n).toNat v ≤ 255 := (tdiv_range v hd0).2.trans hd1
    have hvalue := toNat_policy_of_inRange (zero_le_one.trans hq1) hq255
    refine ⟨(policy (Int.tdiv (readReg s n).toNat v)).1, ?_, by omega, ?_, ?_⟩
    · rw [hquotient n v rfl hv hpos.ne', committedResult, policy_inRange hq1 hq255, Flags.clear]
    · rw [hvalue, Int.tdiv_eq_ediv_of_nonneg hd0]
      exact Int.ediv_mul_le _ hpos.ne'
    · rw [hvalue, Int.tdiv_eq_ediv_of_nonneg hd0]
      exact Int.lt_ediv_add_one_mul_self _ hpos
  · rw [hquotient n v rfl hv hneg.ne, committedResult_underflow s n (tdiv_neg_of_abs_le hneg hle)]

/-- Settles O17: each operation commits its exact result (O10 to O13), whose range follows from those of its operands. -/
theorem intermediatesFitDatapath : Obligations.IntermediatesFitDatapath := by
  rintro s n d rfl
  have hd0 : (0 : Int) ≤ (readReg s n).toNat := Int.natCast_nonneg _
  have hd1 := readReg_toNat_le s n
  refine ⟨fun src v hv => ?_, ?_, ?_⟩
  · obtain ⟨_, hadd, _⟩ := addCommitsSum s src (.reg n)
    obtain ⟨_, hsub, _⟩ := subCommitsDifference s src (.reg n)
    obtain ⟨_, hmul, _⟩ := mulCommitsProduct s src (.reg n)
    obtain ⟨_, hdiv, _⟩ := divCommitsQuotient s src (.reg n)
    have hrange := hv.range
    have hquotient := tdiv_range v hd0
    refine ⟨?_, ?_, ?_, fun hne => ⟨?_, tdiv_neg_iff hd0⟩⟩
    · exact exactResult_of_exec (hadd n v rfl hv) (by omega) (by decide) (by decide)
    · exact exactResult_of_exec (hsub n v rfl hv) (by omega) (by decide) (by decide)
    · exact exactResult_of_exec (hmul n v rfl hv) (mul_range hd0 hd1 hrange) (by decide) (by decide)
    · exact exactResult_of_exec (hdiv n v rfl hv hne) (by omega) (by decide) (by decide)
  · exact exactResult_of_exec (exec_inc_reg n s) (by omega) (by decide) (by decide)
  · exact exactResult_of_exec (exec_dec_reg n s) (by omega) (by decide) (by decide)

end Sys2Proof.Machine

/-! SUPPORT. The statements of IN and OUT (spec/44_io.md), the round trip of STORE and LOAD, and those about the end and
the frame of every instruction (spec/10_state.md). -/

namespace Sys2Proof.Machine

/-! ### Executing and serving IN and OUT (R113 to R117) -/

theorem exec_inp_invalid (s : State) : exec (.inp .invalid) s = .next (abandoned s 3) := rfl

theorem exec_inp_reg (n : Reg) (s : State) : exec (.inp (.reg n)) s = .next (requestInput n s) := rfl

theorem exec_out_of_hasValue {s : State} {src : Source} {v : Int} (h : HasValue s src v) :
    exec (.out src) s = .next (presentOutput (BitVec.ofInt 16 v) s) := by
  simp only [exec, execOut, resolveValue_ok.mpr h]

theorem exec_out_of_valueFails {s : State} {src : Source} {e : ErrorCause} (h : ValueFails s src e) :
    exec (.out src) s = .next (abandoned s (errorCode e)) := by
  simp only [exec, execOut, resolveValue_error h, takeError_eq_abandoned]

/-- The 16-bit two's complement of a value is the value modulo 65536 (R116). -/
theorem toNat_ofInt_half (v : Int) : ((BitVec.ofInt 16 v).toNat : Int) = v % 65536 := by
  rw [BitVec.toNat_ofInt]
  omega

section
variable {s : State} (hr : s.ports.rst = false)
include hr

theorem step_of_waitIn_nil {n : Reg} (hp : s.phase = .waitIn n) (hin : s.ports.input = []) : step s = .next s := by
  rw [step_of_waitIn hr hp, awaitInput, hin]

/-- The waiting IN takes the oldest value and commits it through the policy (R113, R115). -/
theorem step_of_waitIn_cons {n : Reg} {v : Half} {rest : List Half} (hp : s.phase = .waitIn n)
    (hin : s.ports.input = v :: rest) :
    step s = .next (committedResult { s with ports := { s.ports with input := rest } } n v.toInt) := by
  rw [step_of_waitIn hr hp, awaitInput, hin]
  rfl

theorem step_of_waitOut_not_ready {v : Half} (hp : s.phase = .waitOut v) (hready : s.ports.outReady = false) :
    step s = .next s := by
  simp [step_of_waitOut hr hp, awaitOutput, hready]

/-- The waiting OUT sends the value it holds (R116, R117). -/
theorem step_of_waitOut_ready {v : Half} (hp : s.phase = .waitOut v) (hready : s.ports.outReady = true) :
    step s = .next { s with
      ports := { s.ports with output := s.ports.output ++ [v] }
      err := 0, pc := s.pc + 1, phase := .report false } := by
  rw [step_of_waitOut hr hp, awaitOutput, if_pos hready]
  rfl

end

/-! ### The registers through an effect and through a wait (R26) -/

theorem Effect.readReg_of_ne_destination {i : Instr} {s t : State} (h : Effect i s t) {n : Reg}
    (hn : destination i ≠ some n) : readReg t n = readReg s n := by
  cases h with
  | result m x hd => exact readReg_writeResult_ne x s fun hnm => hn (hnm ▸ hd)
  | loaded dst addr m b hi hd =>
    subst hi hd
    exact readReg_writeReg_ne b s fun hnm => hn (congrArg some hnm.symm)
  | error | stored | requested | presented => rfl

theorem readReg_awaitInput_ne {n m : Reg} (s : State) (h : n ≠ m) : readReg (awaitInput m s) n = readReg s n := by
  rcases awaitInput_cases m s with ⟨_, hstay⟩ | ⟨v, rest, _, htake⟩
  · rw [hstay]
  · rw [htake]
    exact readReg_writeResult_ne _ _ h

theorem awaitOutput_regs (v : Half) (s : State) : (awaitOutput v s).regs = s.regs := by
  rcases awaitOutput_cases v s with ⟨_, hstay⟩ | ⟨_, hsend⟩
  · rw [hstay]
  · rw [hsend]
    rfl

/-- An effect that ends the instruction leaves a code that exists (R39). -/
theorem Effect.err_ne_seven {i : Instr} {s t : State} (h : Effect i s t) (hp : t.phase = .report false) :
    t.err ≠ 7 := by
  cases h with
  | error e => exact errorCode_ne_seven e
  | result | loaded | stored => simp [complete_eq]
  | requested | presented => simp at hp

/-! ### The statements -/

/-- Settles O22: IN checks its destination, enters its wait, and the step that serves the wait commits the value. -/
theorem inReadsOneValue : Obligations.InReadsOneValue := by
  refine fun s dst => ⟨decodeWord_encode (.inp dst), ?_, ?_⟩
  · rintro rfl
    exact exec_inp_invalid s
  · rintro n rfl
    exact ⟨requestInput n s, exec_inp_reg n s, rfl, fun v rest hr hin =>
      step_of_waitIn_cons (s := requestInput n s) hr rfl hin⟩

/-- Settles O23: executing an IN only enters the wait, and a step of the wait is one of its two cases. -/
theorem waitInWaitsForOneValue : Obligations.WaitInWaitsForOneValue := by
  refine ⟨fun s n => ⟨_, exec_inp_reg n s, rfl, rfl⟩, fun s n hr hp => ⟨?_, ?_, ?_, ?_, ?_, ?_⟩⟩
  · simp [inReady, hr, hp]
  · simp [instrReady, hp]
  · simp [repValid, hp]
  · simp [outValid, hp]
  · exact step_of_waitIn_nil hr hp
  · exact fun v rest hin => ⟨_, step_of_waitIn_cons hr hp hin, by simp [inReady, committedResult, committed], rfl⟩

/-- Settles O24: OUT presents its operand modulo 65536, and the step that serves the wait sends it. -/
theorem outSendsOneValue : Obligations.OutSendsOneValue := fun s src =>
  ⟨decodeWord_encode (.out src),
    fun v hv => ⟨BitVec.ofInt 16 v, presentOutput (BitVec.ofInt 16 v) s, toNat_ofInt_half v, exec_out_of_hasValue hv, rfl,
      fun hr hready => step_of_waitOut_ready (s := presentOutput (BitVec.ofInt 16 v) s) hr rfl hready⟩,
    fun _ he => exec_out_of_valueFails he⟩

/-- Settles O25: executing an OUT only enters the wait, and a step of the wait is one of its two cases. -/
theorem waitOutHoldsItsValue : Obligations.WaitOutHoldsItsValue := by
  refine ⟨fun s src v hv => ⟨_, _, exec_out_of_hasValue hv, rfl, toNat_ofInt_half v, rfl⟩, fun s v hr hp =>
    ⟨?_, ?_, fun hready => ⟨_, step_of_waitOut_ready hr hp hready, ?_, rfl⟩⟩⟩
  · simp [outValid, hr, hp]
  · exact step_of_waitOut_not_ready hr hp
  · simp [outValid]

/-- Settles O28: STORE sets the cell (O26), LOAD copies it (O27), and R1's write leaves R0. -/
theorem storeThenLoadReturnsValue : Obligations.StoreThenLoadReturnsValue := by
  intro s a hm h0 h1
  obtain ⟨_, _, _, _, hstore, _⟩ := storeWritesOneCell s (.reg 0) (.imm a)
  obtain ⟨m, ⟨_, hcell⟩, hexec⟩ := hstore 0 a.toInt rfl (.imm a) h0 h1 hm
  obtain ⟨_, _, _, _, hload⟩ :=
    loadReadsOneCell { s with mem := m, err := 0, pc := s.pc + 1, phase := .report false } (.reg 1) (.imm a)
  refine ⟨_, _, hexec, hload 1 a.toInt rfl (.imm a) h0 h1, ?_, ?_, rfl, ?_⟩
  · have hread : Memory.read m a.toInt.toNat = readReg s 0 := by rw [hcell, if_pos (Int.toNat_of_nonneg h0)]
    exact (readReg_writeReg_same 1 _ s).trans hread
  · exact readReg_writeReg_ne _ s (by decide)
  · exact BitVec.add_assoc s.pc 1 1

/-- Settles O29: the effects of an instruction, and the two wait steps. -/
theorem onlyDestinationChanges : Obligations.OnlyDestinationChanges := by
  refine ⟨fun i s t n h hn => (effect_of_exec h).readReg_of_ne_destination hn, fun s t m n hr hp h hn => ?_,
    fun s t v hr hp h => ?_⟩
  · cases (step_of_waitIn hr hp).symm.trans h
    exact readReg_awaitInput_ne s hn
  · cases (step_of_waitOut hr hp).symm.trans h
    exact awaitOutput_regs v s

/-- Settles O32: every effect ends the instruction or enters its wait. -/
theorem everyInstructionEndsOrWaits : Obligations.EveryInstructionEndsOrWaits := by
  intro i s
  obtain ⟨t, hexec, heffect⟩ := exec_effect i s
  refine ⟨t, hexec, heffect.ended_or_waits.imp_left fun ⟨hp, hpc⟩ => ?_⟩
  exact ⟨hp, hpc, heffect.err_ne_seven hp⟩

end Sys2Proof.Machine

/-! SUPPORT. No instruction reads `FLAGS`, `PC` or `ERR` (R33, R38): what it does is an action chosen from the registers
and the memory alone. -/

namespace Sys2Proof.Machine

/-! ### The action of an instruction -/

/-- What an instruction does, apart from the state it does it to. -/
inductive Action where
  /-- abandon with an error (R126) -/
  | abandon (e : ErrorCause)
  /-- commit an exact result through the policy (R89) -/
  | commit (n : Reg) (t : Int)
  /-- copy a byte into a register (R120) -/
  | load (n : Reg) (b : Byte)
  /-- copy a byte into a cell (R119) -/
  | store (c : Nat) (b : Byte)
  /-- request a value (R113) -/
  | request (n : Reg)
  /-- present a value (R116) -/
  | present (v : Half)

def Action.apply : Action → State → State
  | .abandon e, s => takeError e s
  | .commit n t, s => complete (writeResult n t s)
  | .load n b, s => complete (writeReg n b s)
  | .store c b, s => complete { s with mem := Memory.write s.mem c b }
  | .request n, s => requestInput n s
  | .present v, s => presentOutput v s

/-- An instruction commits through the policy, or loads or stores, as its kind says (R32). -/
def Action.fits (i : Instr) : Action → Prop
  | .commit _ _ => appliesPolicy i = true
  | .load _ _ => appliesPolicy i = false
  | .store _ _ => appliesPolicy i = false
  | .abandon _ => True
  | .request _ => True
  | .present _ => True

/-- The state with other values of `FLAGS`, `PC` and `ERR`. -/
def withStatus (f : Flags) (p : Half) (e : BitVec 3) (s : State) : State := { s with flags := f, pc := p, err := e }

theorem withStatus_self (s : State) : withStatus s.flags s.pc s.err s = s := rfl

section
variable (f : Flags) (p : Half) (e : BitVec 3) (s : State)

@[simp] theorem readReg_withStatus (n : Reg) : readReg (withStatus f p e s) n = readReg s n := rfl

@[simp] theorem regValue_withStatus (n : Reg) : regValue (withStatus f p e s) n = regValue s n := rfl

@[simp] theorem memRead_withStatus (a : Int) : memRead (withStatus f p e s) a = memRead s a := rfl

@[simp] theorem resolveValue_withStatus (src : Source) : resolveValue (withStatus f p e s) src = resolveValue s src := by
  cases src with
  | reg | imm | bad => rfl
  | ind r => simp [resolveValue]

@[simp] theorem resolveAddress_withStatus (src : Source) :
    resolveAddress (withStatus f p e s) src = resolveAddress s src := by
  cases src <;> rfl

end

/-! ### The families' shapes choose their action from the registers and the memory -/

/-- The action that a family's result is: it is the same whatever the status. -/
def ActsAs (r : State → Except ErrorCause State) (s : State) (a : Action) : Prop :=
  ∀ f p e, settle (withStatus f p e s) (r (withStatus f p e s)) = .next (a.apply (withStatus f p e s))

theorem sourceToReg_actsAs (g : Int → Int → Except ErrorCause Int) (src : Source) (dst : RegField) (s : State) :
    (∃ e, ActsAs (sourceToReg g src dst) s (.abandon e)) ∨ ∃ n t, ActsAs (sourceToReg g src dst) s (.commit n t) := by
  cases hsrc : resolveValue s src with
  | error e => exact .inl ⟨e, fun f p c => by simp [sourceToReg, hsrc, settle_error, Action.apply]⟩
  | ok v =>
    cases dst with
    | invalid =>
      exact .inl ⟨.invalidDestination, fun f p c => by simp [sourceToReg, hsrc, settle_error, Action.apply]⟩
    | reg n =>
      cases hg : g (regValue s n) v with
      | error e => exact .inl ⟨e, fun f p c => by simp [sourceToReg, hsrc, hg, settle_error, Action.apply]⟩
      | ok t => exact .inr ⟨n, t, fun f p c => by simp [sourceToReg, hsrc, hg, settle_ok, Action.apply]⟩

theorem updateReg_actsAs (g : Int → Int) (dst : RegField) (s : State) :
    (∃ e, ActsAs (updateReg g dst) s (.abandon e)) ∨ ∃ n t, ActsAs (updateReg g dst) s (.commit n t) := by
  cases dst with
  | invalid => exact .inl ⟨.invalidRegister, fun _ _ _ => rfl⟩
  | reg n => exact .inr ⟨n, g (regValue s n), fun _ _ _ => rfl⟩

theorem moveBits_actsAs (g : Byte → Nat → Nat) (dst : RegField) (amount : Source) (s : State) :
    (∃ e, ActsAs (moveBits g dst amount) s (.abandon e)) ∨ ∃ n t, ActsAs (moveBits g dst amount) s (.commit n t) := by
  cases dst with
  | invalid => exact .inl ⟨.invalidRegister, fun _ _ _ => rfl⟩
  | reg n =>
    cases hamount : resolveValue s amount with
    | error e => exact .inl ⟨e, fun f p c => by simp [moveBits, hamount, settle_error, Action.apply]⟩
    | ok k =>
      by_cases hk : k < 0
      · exact .inl ⟨.invalidOperand, fun f p c => by simp [moveBits, hamount, hk, settle_error, Action.apply]⟩
      · exact .inr ⟨n, (g (readReg s n) k.toNat : Nat), fun f p c => by
          simp [moveBits, hamount, hk, settle_ok, Action.apply]⟩

theorem storeReg_actsAs (src : RegField) (addr : Source) (s : State) :
    (∃ e, ActsAs (storeReg src addr) s (.abandon e)) ∨ ∃ c b, ActsAs (storeReg src addr) s (.store c b) := by
  cases src with
  | invalid => exact .inl ⟨.invalidRegister, fun _ _ _ => rfl⟩
  | reg n =>
    cases haddr : resolveAddress s addr with
    | error e => exact .inl ⟨e, fun f p c => by simp [storeReg, haddr, settle_error, Action.apply]⟩
    | ok a =>
      cases hcell : cellOf a with
      | error e => exact .inl ⟨e, fun f p c => by simp [storeReg, haddr, memWrite, hcell, settle_error, Action.apply]⟩
      | ok c =>
        exact .inr ⟨c, readReg s n, fun f p e => by simp [storeReg, haddr, memWrite, hcell, settle_ok, Action.apply]⟩

theorem loadReg_actsAs (dst : RegField) (addr : Source) (s : State) :
    (∃ e, ActsAs (loadReg dst addr) s (.abandon e)) ∨ ∃ n b, ActsAs (loadReg dst addr) s (.load n b) := by
  cases dst with
  | invalid => exact .inl ⟨.invalidDestination, fun _ _ _ => rfl⟩
  | reg n =>
    cases haddr : resolveAddress s addr with
    | error e => exact .inl ⟨e, fun f p c => by simp [loadReg, haddr, settle_error, Action.apply]⟩
    | ok a =>
      cases hread : memRead s a with
      | error e => exact .inl ⟨e, fun f p c => by simp [loadReg, haddr, hread, settle_error, Action.apply]⟩
      | ok b => exact .inr ⟨n, b, fun f p e => by simp [loadReg, haddr, hread, settle_ok, Action.apply]⟩

/-! ### Every instruction is an action -/

/-- Whatever the status, `exec i` is the action `a`, which is of `i`'s kind. -/
def ExecActsAs (i : Instr) (s : State) (a : Action) : Prop :=
  a.fits i ∧ ∀ f p e, exec i (withStatus f p e s) = .next (a.apply (withStatus f p e s))

theorem execActsAs_of_result {i : Instr} {s : State} {r : State → Except ErrorCause State}
    (hr : (∃ e, ActsAs r s (.abandon e)) ∨ ∃ n t, ActsAs r s (.commit n t)) (hexec : ∀ s, exec i s = settle s (r s))
    (hp : appliesPolicy i = true) : ∃ a, ExecActsAs i s a := by
  rcases hr with ⟨e, h⟩ | ⟨n, t, h⟩
  · exact ⟨.abandon e, trivial, fun f p c => (hexec _).trans (h f p c)⟩
  · exact ⟨.commit n t, hp, fun f p c => (hexec _).trans (h f p c)⟩

theorem exec_action (i : Instr) (s : State) : ∃ a, ExecActsAs i s a := by
  cases i with
  | mov src dst => exact execActsAs_of_result (sourceToReg_actsAs _ src dst s) (fun _ => rfl) rfl
  | add src dst => exact execActsAs_of_result (sourceToReg_actsAs _ src dst s) (fun _ => rfl) rfl
  | sub src dst => exact execActsAs_of_result (sourceToReg_actsAs _ src dst s) (fun _ => rfl) rfl
  | mul src dst => exact execActsAs_of_result (sourceToReg_actsAs _ src dst s) (fun _ => rfl) rfl
  | div src dst => exact execActsAs_of_result (sourceToReg_actsAs _ src dst s) (fun _ => rfl) rfl
  | inc dst => exact execActsAs_of_result (updateReg_actsAs _ dst s) (fun _ => rfl) rfl
  | dec dst => exact execActsAs_of_result (updateReg_actsAs _ dst s) (fun _ => rfl) rfl
  | rol dst amount => exact execActsAs_of_result (moveBits_actsAs _ dst amount s) (fun _ => rfl) rfl
  | ror dst amount => exact execActsAs_of_result (moveBits_actsAs _ dst amount s) (fun _ => rfl) rfl
  | shl dst amount => exact execActsAs_of_result (moveBits_actsAs _ dst amount s) (fun _ => rfl) rfl
  | shr dst amount => exact execActsAs_of_result (moveBits_actsAs _ dst amount s) (fun _ => rfl) rfl
  | inp dst =>
    cases dst with
    | invalid => exact ⟨.abandon .invalidDestination, trivial, fun _ _ _ => rfl⟩
    | reg n => exact ⟨.request n, trivial, fun _ _ _ => rfl⟩
  | out src =>
    cases hsrc : resolveValue s src with
    | error e => exact ⟨.abandon e, trivial, fun f p c => by simp [exec, execOut, hsrc, Action.apply]⟩
    | ok v => exact ⟨.present (BitVec.ofInt 16 v), trivial, fun f p c => by simp [exec, execOut, hsrc, Action.apply]⟩
  | store src addr =>
    rcases storeReg_actsAs src addr s with ⟨e, h⟩ | ⟨c, b, h⟩
    · exact ⟨.abandon e, trivial, h⟩
    · exact ⟨.store c b, rfl, h⟩
  | load dst addr =>
    rcases loadReg_actsAs dst addr s with ⟨e, h⟩ | ⟨n, b, h⟩
    · exact ⟨.abandon e, trivial, h⟩
    · exact ⟨.load n b, rfl, h⟩

/-! ### One action on two states that differ in the status alone -/

/-- An action that ends the instruction writes `ERR` and adds one to `PC`. -/
theorem sameButStatus_of_ended {s t t' : State} {p : Half} {e : BitVec 3} (hregs : t'.regs = t.regs)
    (hmem : t'.mem = t.mem) (hports : t'.ports = t.ports) (hphase : t.phase = .report false)
    (hphase' : t'.phase = .report false) (hpc : t.pc = s.pc + 1) (hpc' : t'.pc = p + 1) (herr : t'.err = t.err) :
    Claims.SameButStatus s t t' p e :=
  ⟨hregs, hmem, hports, hphase'.trans hphase.symm, by rw [hpc, hpc']; bv_omega, herr.trans (if_pos hphase).symm⟩

/-- One that does not end it leaves both. -/
theorem sameButStatus_of_not_ended {s t t' : State} {p : Half} {e : BitVec 3} (hregs : t'.regs = t.regs)
    (hmem : t'.mem = t.mem) (hports : t'.ports = t.ports) (hphase : t.phase ≠ .report false)
    (hphase' : t'.phase = t.phase) (hpc : t.pc = s.pc) (hpc' : t'.pc = p) (herr : t'.err = e) :
    Claims.SameButStatus s t t' p e :=
  ⟨hregs, hmem, hports, hphase', by rw [hpc, hpc']; bv_omega, herr.trans (if_neg hphase).symm⟩

section
variable (s : State) (f : Flags) (p : Half) (e : BitVec 3)

theorem Action.sameButStatus (a : Action) : Claims.SameButStatus s (a.apply s) (a.apply (withStatus f p e s)) p e := by
  cases a with
  | abandon | commit | load | store => exact sameButStatus_of_ended rfl rfl rfl rfl rfl rfl rfl rfl
  | request | present => exact sameButStatus_of_not_ended rfl rfl rfl (by simp [Action.apply]) rfl rfl rfl rfl

theorem Action.flags_withStatus {i : Instr} {a : Action} (h : a.fits i) :
    (a.apply (withStatus f p e s)).flags =
      if (a.apply s).phase = .report false ∧ (a.apply s).err = 0 ∧ appliesPolicy i = true then (a.apply s).flags
      else f := by
  cases a with
  | abandon c =>
    have herr : (takeError c s).err ≠ 0 := errorCode_ne_zero c
    exact (if_neg fun ⟨_, hnone, _⟩ => herr hnone).symm
  | commit n t => exact (if_pos ⟨rfl, rfl, h⟩).symm
  | load | store =>
    have hkind : appliesPolicy i = false := h
    exact (if_neg (by simp [hkind])).symm
  | request | present => exact (if_neg (by simp [Action.apply])).symm

theorem awaitInput_sameButStatus {n : Reg} (hp : s.phase = .waitIn n) :
    Claims.SameButStatus s (awaitInput n s) (awaitInput n (withStatus f p e s)) p e ∧
      (awaitInput n (withStatus f p e s)).flags =
        if (awaitInput n s).phase = .report false then (awaitInput n s).flags else f := by
  cases hin : s.ports.input with
  | nil =>
    have hstay : awaitInput n s = s := by rw [awaitInput, hin]
    have hstay' : awaitInput n (withStatus f p e s) = withStatus f p e s := by
      rw [awaitInput, show (withStatus f p e s).ports.input = [] from hin]
    have hn : s.phase ≠ .report false := by simp [hp]
    rw [hstay, hstay', if_neg hn]
    exact ⟨sameButStatus_of_not_ended rfl rfl rfl hn rfl rfl rfl rfl, rfl⟩
  | cons v rest =>
    have htake : awaitInput n s = complete (writeResult n (sext16 v)
        { s with ports := { s.ports with input := rest } }) := by rw [awaitInput, hin]
    have htake' : awaitInput n (withStatus f p e s) = complete (writeResult n (sext16 v)
        { withStatus f p e s with ports := { s.ports with input := rest } }) := by
      rw [awaitInput, show (withStatus f p e s).ports.input = v :: rest from hin]
      rfl
    rw [htake, htake', if_pos (by simp [complete_eq])]
    exact ⟨sameButStatus_of_ended rfl rfl rfl rfl rfl rfl rfl rfl, rfl⟩

theorem awaitOutput_sameButStatus {v : Half} (hp : s.phase = .waitOut v) :
    Claims.SameButStatus s (awaitOutput v s) (awaitOutput v (withStatus f p e s)) p e := by
  unfold awaitOutput
  by_cases hready : s.ports.outReady = true
  · rw [if_pos hready, if_pos (show (withStatus f p e s).ports.outReady = true from hready)]
    exact sameButStatus_of_ended rfl rfl rfl rfl rfl rfl rfl rfl
  · rw [if_neg hready, if_neg (show ¬ (withStatus f p e s).ports.outReady = true from hready)]
    exact sameButStatus_of_not_ended rfl rfl rfl (by simp [hp]) rfl rfl rfl rfl

end

/-! ### The statement -/

/-- Settles O33: the same action, or the same step of a wait, on both states. -/
theorem noInstructionReadsStatus : Obligations.NoInstructionReadsStatus := by
  refine ⟨fun i s t f p e h => ?_, fun s t n f p e hr hp h => ?_, fun s t v f p e hr hp h => ?_⟩
  · obtain ⟨a, hfits, hexec⟩ := exec_action i s
    cases (withStatus_self s ▸ hexec s.flags s.pc s.err).symm.trans h
    exact ⟨_, hexec f p e, a.sameButStatus s f p e, Action.flags_withStatus s f p e hfits⟩
  · cases (step_of_waitIn hr hp).symm.trans h
    exact ⟨_, step_of_waitIn (s := withStatus f p e s) hr hp, awaitInput_sameButStatus s f p e hp⟩
  · cases (step_of_waitOut hr hp).symm.trans h
    exact ⟨_, step_of_waitOut (s := withStatus f p e s) hr hp, awaitOutput_sameButStatus s f p e hp,
      awaitOutput_flags v (withStatus f p e s)⟩

end Sys2Proof.Machine

/-! SUPPORT. Which errors a well-formed instruction can still raise (R69, R122), and the canonical form of the memory
(spec/20_memory.md section 2). -/

namespace Sys2Proof.Machine

/-! ### The errors of well-formed operands (R84, R85) -/

theorem ValueFails.outOfBounds_of_wfData {s : State} {src : Source} {e : ErrorCause} (h : ValueFails s src e)
    (hwf : src.wfData = true) : e = .outOfBounds := by
  cases h with
  | ind => rfl
  | reg | indReg | bad => cases hwf

theorem AddressFails.not_wfAddress {s : State} {src : Source} {e : ErrorCause} (h : AddressFails s src e) :
    src.wfAddress = false := by
  cases h <;> rfl

theorem RegField.eq_reg_of_wf {r : RegField} (h : r.wf = true) : ∃ n, r = .reg n := by
  cases r with
  | reg n => exact ⟨n, rfl⟩
  | invalid => cases h

/-- A register or a cell holds no negative value, so a negative operand is a literal. -/
theorem HasValue.eq_imm_of_neg {s : State} {src : Source} {v : Int} (h : HasValue s src v) (hv : v < 0) :
    ∃ w, src = .imm w ∧ w.toInt < 0 := by
  cases h with
  | reg | ind => omega
  | imm w => exact ⟨w, rfl, hv⟩

/-- The errors that are left to a well-formed instruction. -/
inductive WfCause (i : Instr) : ErrorCause → Prop
  | bounds : WfCause i .outOfBounds
  | amount (w : Half) (hi : amountOf i = some (.imm w)) (hw : w.toInt < 0) : WfCause i .invalidOperand
  | divisor (src : Source) (dst : RegField) (hi : i = .div src dst) : WfCause i .divisionByZero

/-- What an instruction settles on is a result or an error that is left to it. -/
def SettlesWf (i : Instr) (r : Except ErrorCause State) : Prop := ∀ e, r = .error e → WfCause i e

section
variable {i : Instr} {s : State}

theorem settlesWf_ok (t : State) : SettlesWf i (.ok t) := nofun

theorem settlesWf_error {e : ErrorCause} (h : WfCause i e) : SettlesWf i (.error e) := by
  rintro _ ⟨⟩
  exact h

theorem sourceToReg_settlesWf {f : Int → Int → Except ErrorCause Int} {src : Source} {dst : RegField}
    (hwf : (src.wfData && dst.wf) = true) (hf : ∀ d v e, f d v = .error e → WfCause i e) :
    SettlesWf i (sourceToReg f src dst s) := by
  obtain ⟨hsrc, hdst⟩ := Bool.and_eq_true_iff.mp hwf
  obtain ⟨n, rfl⟩ := RegField.eq_reg_of_wf hdst
  rcases value_or_fails s src with ⟨v, hv⟩ | ⟨e, he⟩
  · cases hresult : f (regValue s n) v with
    | ok t =>
      rw [sourceToReg_reg hv hresult]
      exact settlesWf_ok _
    | error e =>
      rw [sourceToReg_of_resultFails hv hresult]
      exact settlesWf_error (hf _ _ _ hresult)
  · rw [sourceToReg_of_valueFails f he, he.outOfBounds_of_wfData hsrc]
    exact settlesWf_error .bounds

/-- Where the operation itself never fails, only the source's bounds are left. -/
theorem sourceToReg_ok_settlesWf {g : Int → Int → Int} {src : Source} {dst : RegField}
    (hwf : (src.wfData && dst.wf) = true) : SettlesWf i (sourceToReg (fun d v => .ok (g d v)) src dst s) :=
  sourceToReg_settlesWf hwf nofun

theorem updateReg_settlesWf {f : Int → Int} {dst : RegField} (hwf : dst.wf = true) :
    SettlesWf i (updateReg f dst s) := by
  obtain ⟨n, rfl⟩ := RegField.eq_reg_of_wf hwf
  exact settlesWf_ok _

theorem moveBits_settlesWf {f : Byte → Nat → Nat} {dst : RegField} {amount : Source}
    (hwf : (dst.wf && amount.wfData) = true) (hi : amountOf i = some amount) :
    SettlesWf i (moveBits f dst amount s) := by
  obtain ⟨hdst, hamount⟩ := Bool.and_eq_true_iff.mp hwf
  obtain ⟨n, rfl⟩ := RegField.eq_reg_of_wf hdst
  rcases value_or_fails s amount with ⟨k, hk⟩ | ⟨e, he⟩
  · rcases Int.lt_or_le k 0 with hneg | hpos
    · obtain ⟨w, rfl, hw⟩ := hk.eq_imm_of_neg hneg
      rw [moveBits_of_negative f n hk hneg]
      exact settlesWf_error (.amount w hi hw)
    · rw [moveBits_reg f n hk hpos]
      exact settlesWf_ok _
  · rw [moveBits_of_valueFails f n he, he.outOfBounds_of_wfData hamount]
    exact settlesWf_error .bounds

theorem storeReg_settlesWf {src : RegField} {addr : Source} (hwf : (src.wf && addr.wfAddress) = true) :
    SettlesWf i (storeReg src addr s) := by
  obtain ⟨hsrc, haddr⟩ := Bool.and_eq_true_iff.mp hwf
  obtain ⟨n, rfl⟩ := RegField.eq_reg_of_wf hsrc
  rcases address_or_fails s addr with ⟨a, ha⟩ | ⟨e, he⟩
  · rw [storeReg_of_hasAddress n ha]
    rcases memWrite_cases a (readReg s n) s with ⟨_, _, hok⟩ | ⟨_, hout⟩
    · rw [hok]
      exact settlesWf_ok _
    · rw [hout]
      exact settlesWf_error .bounds
  · simp [he.not_wfAddress] at haddr

theorem loadReg_settlesWf {dst : RegField} {addr : Source} (hwf : (dst.wf && addr.wfAddress) = true) :
    SettlesWf i (loadReg dst addr s) := by
  obtain ⟨hdst, haddr⟩ := Bool.and_eq_true_iff.mp hwf
  obtain ⟨n, rfl⟩ := RegField.eq_reg_of_wf hdst
  rcases address_or_fails s addr with ⟨a, ha⟩ | ⟨e, he⟩
  · by_cases hin : 0 ≤ a ∧ a ≤ 63
    · rw [loadReg_inside n ha hin.1 hin.2]
      exact settlesWf_ok _
    · rw [loadReg_outside n ha (by omega)]
      exact settlesWf_error .bounds
  · simp [he.not_wfAddress] at haddr

theorem divide_settlesWf {src : Source} {dst : RegField} (d v : Int) (e : ErrorCause) (h : divide d v = .error e) :
    WfCause (.div src dst) e := by
  by_cases hv : v = 0
  · subst hv
    cases (divide_zero d).symm.trans h
    exact .divisor src dst rfl
  · rw [divide_of_ne_zero d hv] at h
    cases h

/-- The instruction that ends has no error, or one that is left to it. -/
theorem SettlesWf.err {r : Except ErrorCause State} {t : State} (h : SettlesWf i r) (ht : settle s r = .next t) :
    t.err = 0 ∨ ∃ e, WfCause i e ∧ t.err = errorCode e := by
  cases r with
  | ok u =>
    cases ht
    exact .inl rfl
  | error e =>
    cases ht
    exact .inr ⟨e, h e rfl, rfl⟩

end

/-- A well-formed instruction that ends has no error, or one that is left to it. -/
theorem err_of_exec_wf {i : Instr} {s t : State} (hwf : i.wf = true) (h : exec i s = .next t)
    (hp : t.phase = .report false) : t.err = 0 ∨ ∃ e, WfCause i e ∧ t.err = errorCode e := by
  cases i with
  | mov => exact (sourceToReg_ok_settlesWf hwf).err h
  | add => exact (sourceToReg_ok_settlesWf hwf).err h
  | sub => exact (sourceToReg_ok_settlesWf hwf).err h
  | mul => exact (sourceToReg_ok_settlesWf hwf).err h
  | div => exact (sourceToReg_settlesWf hwf divide_settlesWf).err h
  | inc => exact (updateReg_settlesWf hwf).err h
  | dec => exact (updateReg_settlesWf hwf).err h
  | rol => exact (moveBits_settlesWf hwf rfl).err h
  | ror => exact (moveBits_settlesWf hwf rfl).err h
  | shl => exact (moveBits_settlesWf hwf rfl).err h
  | shr => exact (moveBits_settlesWf hwf rfl).err h
  | store => exact (storeReg_settlesWf hwf).err h
  | load => exact (loadReg_settlesWf hwf).err h
  | inp dst =>
    obtain ⟨n, rfl⟩ := RegField.eq_reg_of_wf hwf
    cases (exec_inp_reg n s).symm.trans h
    simp at hp
  | out src =>
    rcases value_or_fails s src with ⟨v, hv⟩ | ⟨e, he⟩
    · cases (exec_out_of_hasValue hv).symm.trans h
      simp at hp
    · cases (exec_out_of_valueFails he).symm.trans h
      exact .inr ⟨e, he.outOfBounds_of_wfData hwf ▸ .bounds, rfl⟩

/-! ### The canonical form (R40, log 4) -/

theorem wfFrom_cons_iff {lo k : Nat} {b : Byte} {m : List Host.Cell} :
    Memory.wfFrom lo ((k, b) :: m) = true ↔
      lo ≤ k ∧ k < Config.memSize ∧ b ≠ Config.memReset ∧ Memory.wfFrom (k + 1) m = true := by
  simp [Memory.wfFrom, and_assoc]

/-- The first cell of a canonical memory is not listed in one that begins above it, so the two read differently there. -/
theorem read_ne_of_first_lt {lo k : Nat} {b : Byte} {m m' : List Host.Cell} (h : Memory.wfFrom lo ((k, b) :: m) = true)
    (h' : Memory.wfFrom (k + 1) m' = true) : Memory.read ((k, b) :: m) k ≠ Memory.read m' k := by
  obtain ⟨_, _, hb, _⟩ := wfFrom_cons_iff.mp h
  rw [read_cons, if_pos rfl, read_below h' k.lt_succ_self]
  exact hb

/-- The cells after an equal first one read the same. -/
theorem read_tail_eq {k : Nat} {b : Byte} {m m' : List Host.Cell} (h : Memory.wfFrom (k + 1) m = true)
    (h' : Memory.wfFrom (k + 1) m' = true)
    (hread : ∀ a, Memory.read ((k, b) :: m) a = Memory.read ((k, b) :: m') a) (a : Nat) :
    Memory.read m a = Memory.read m' a := by
  by_cases ha : k = a
  · subst ha
    rw [read_below h k.lt_succ_self, read_below h' k.lt_succ_self]
  · have hcons := hread a
    rwa [read_cons, read_cons, if_neg ha, if_neg ha] at hcons

theorem eq_of_wfFrom_of_read_eq {m m' : List Host.Cell} {lo lo' : Nat} (h : Memory.wfFrom lo m = true)
    (h' : Memory.wfFrom lo' m' = true) (hread : ∀ a, Memory.read m a = Memory.read m' a) : m = m' := by
  induction m generalizing m' lo lo' with
  | nil =>
    cases m' with
    | nil => rfl
    | cons c m' => exact absurd (hread c.1).symm (read_ne_of_first_lt h' (m' := []) rfl)
  | cons c m ih =>
    obtain ⟨k, b⟩ := c
    cases m' with
    | nil => exact absurd (hread k) (read_ne_of_first_lt h (m' := []) rfl)
    | cons c' m' =>
      obtain ⟨k', b'⟩ := c'
      obtain ⟨_, hk, hb, hm⟩ := wfFrom_cons_iff.mp h
      obtain ⟨_, hk', hb', hm'⟩ := wfFrom_cons_iff.mp h'
      rcases Nat.lt_trichotomy k k' with hlt | rfl | hlt
      · exact absurd (hread k) (read_ne_of_first_lt h (wfFrom_cons_iff.mpr ⟨hlt, hk', hb', hm'⟩))
      · have hfirst := hread k
        simp only [read_cons, if_true] at hfirst
        subst hfirst
        rw [ih hm hm' (read_tail_eq hm hm' hread)]
      · exact absurd (hread k').symm (read_ne_of_first_lt h' (wfFrom_cons_iff.mpr ⟨hlt, hk, hb, hm⟩))

/-! ### The statements -/

/-- Settles O34: the errors that are left are out of bounds, a negative literal amount and a zero divisor. -/
theorem wellFormedNamesNoBadOperand : Obligations.WellFormedNamesNoBadOperand := by
  intro i s t hwf h hp
  rcases err_of_exec_wf hwf h hp with hnone | ⟨e, hcause, hcode⟩
  · simp [hnone]
  · rw [hcode]
    cases hcause with
    | bounds => simp [errorCode]
    | amount w hi hw => simpa [errorCode] using ⟨w, hi, hw⟩
    | divisor src dst hi => simpa [errorCode] using ⟨src, dst, hi⟩

/-- Settles O50: by induction on the cells; the lower of two first cells would be read in one memory alone. -/
theorem equalCellsAreEqualMemories : Obligations.EqualCellsAreEqualMemories := fun _ _ hm hm' hread =>
  eq_of_wfFrom_of_read_eq hm hm' hread

end Sys2Proof.Machine

/-! SUPPORT. The statements of the instruction cycle and of the boundary (spec/40_execution_common.md section 1,
spec/70_reset_and_hazards.md, spec/00_scope.md section 5): each run is the chain of the steps of its phases. -/

namespace Sys2Proof.Machine

/-! ### One step from each phase (R79) -/

/-- The state in which the oldest transfer has been accepted: what is left on the port, and the next phase (R10). -/
def accepted (p : Phase) (rest : List InstrTransfer) (s : State) : State :=
  { s with phase := p, ports := { s.ports with instr := rest } }

section
variable {s : State} (hr : s.ports.rst = false)
include hr

theorem step_of_idle_reset (hp : s.phase = .idle true) : step s = .next (endResetCycle s) := by
  simp [step, hr, hp]

theorem step_of_idle_word {w : Word} {rest : List InstrTransfer} (hp : s.phase = .idle false)
    (hin : s.ports.instr = ⟨w, false⟩ :: rest) : step s = .next (accepted (.execute w) rest s) := by
  simp [step, hr, hp, acceptTransfer, hin, accepted]

theorem step_of_idle_progEnd {w : Word} {rest : List InstrTransfer} (hp : s.phase = .idle false)
    (hin : s.ports.instr = ⟨w, true⟩ :: rest) : step s = .next (accepted (.report true) rest s) := by
  simp [step, hr, hp, acceptTransfer, hin, accepted]

theorem step_of_execute {w : Word} {i : Instr} (hp : s.phase = .execute w) (hd : decodeWord w = .ok i) :
    step s = exec i s := by
  simp [step, hr, hp, runWord, hd]

theorem step_of_ended (hp : s.phase = .ended) : step s = .next s := by
  simp [step, hr, hp]

end

/-! ### The word that a host's bytes or a table word stand for (R52) -/

theorem decodeWord_of_decodeBytes {b0 b1 b2 b3 : Byte} {rest rest' : List Byte} {i : Instr}
    (h : decodeBytes (b0 :: b1 :: b2 :: b3 :: rest) = .ok (i, rest')) :
    decodeWord (wordOfBytes b0 b1 b2 b3) = .ok i := by
  cases hd : decodeWord (wordOfBytes b0 b1 b2 b3) with
  | error r => simp [decodeBytes, hd] at h
  | ok j =>
    simp only [decodeBytes, hd, Except.ok.injEq, Prod.mk.injEq] at h
    exact congrArg _ h.1

theorem decodeWord_of_decodeTableWord {nbits w : Nat} {i : Instr} (h : decodeTableWord nbits w = some i) :
    decodeWord (tableWord nbits w) = .ok i := by
  unfold decodeTableWord at h
  split at h
  next =>
    split at h <;> cases h
    next hbytes => exact wordOfBytes_extract (tableWord nbits w) ▸ decodeWord_of_decodeBytes hbytes
  next => cases h

/-! ### What the core drives (R10 to R13, R138) -/

theorem drivesNothing_of_rst {s : State} (hr : s.ports.rst = true) : Claims.DrivesNothing s := by
  simp [Claims.DrivesNothing, instrReady, inReady, outValid, repValid, hr]

theorem drivesNothing_of_idle_reset {s : State} (hp : s.phase = .idle true) : Claims.DrivesNothing s := by
  simp [Claims.DrivesNothing, instrReady, inReady, outValid, repValid, hp]

/-! ### The report of a state (R13, R81) -/

theorem getElem_cells (m : List Host.Cell) (a : Fin 64) : (Memory.cells m)[a] = Memory.read m a := by
  simp [Memory.cells]

/-- The last step of the cycle: the report is sent, and the machine is idle with the flags clear (R81, R82). -/
theorem run_one_of_report {s : State} {final : Bool} (hr : s.ports.rst = false) (hp : s.phase = .report final)
    (hready : s.ports.repReady = true) :
    Host.Core.run core 1 s = .next { s with
      flags := Flags.clear
      phase := if final then .ended else .idle false
      ports := { s.ports with reports := s.ports.reports ++ [reportOf final s] } } :=
  run_of_step 0 (step_of_report_of_repReady hr hp hready)

/-! ### The instruction that an accepted word runs (R79) -/

/-- The step after a word's acceptance runs its instruction, or abandons an illegal word. -/
theorem step_accepted {s u : State} {w : Word} {rest : List InstrTransfer} (hr : s.ports.rst = false)
    (h : (∃ i, decodeWord w = .ok i ∧ exec i (accepted (.execute w) rest s) = .next u) ∨
      (illegalWord w ∧ u = abandoned (accepted (.execute w) rest s) 1)) :
    step (accepted (.execute w) rest s) = .next u := by
  rcases h with ⟨i, hd, hexec⟩ | ⟨hillegal, rfl⟩
  · exact (step_of_execute (s := accepted (.execute w) rest s) hr rfl hd).trans hexec
  · obtain ⟨r, hd⟩ := decodeWord_rejects_illegalWord hillegal
    exact step_of_rejected (s := accepted (.execute w) rest s) hr rfl hd

/-- A step from `Execute` keeps the ports, and `PC` counts when the report is then pending. -/
theorem ports_pc_of_step_execute {s u : State} {w : Word} (hr : s.ports.rst = false) (hp : s.phase = .execute w)
    (hu : u.phase = .report false) (h : step s = .next u) : u.ports = s.ports ∧ u.pc = s.pc + 1 := by
  have hpc := (reportEffect_of_step hr h).pc
  rw [if_pos ⟨hu, by simp [hp]⟩] at hpc
  refine ⟨?_, hpc⟩
  cases hd : decodeWord w with
  | error r =>
    cases (step_of_rejected hr hp hd).symm.trans h
    rfl
  | ok i =>
    rw [step_of_execute hr hp hd] at h
    exact (effect_of_exec h).ports_kept

/-- An instruction with a wait: accepted, executed, served, and reported with the flags it left. -/
theorem run_four_of_served {s a b c : State} (haccept : step s = .next a) (hwait : step a = .next b)
    (hserve : step b = .next c) (hr : c.ports.rst = false) (hp : c.phase = .report false)
    (hready : c.ports.repReady = true) :
    Host.Core.run core 4 s = .next { c with
      flags := Flags.clear
      phase := .idle false
      ports := { c.ports with reports := c.ports.reports ++ [reportOf false c] } } := by
  rw [run_of_step 3 haccept, run_of_step 2 hwait, run_of_step 1 hserve]
  exact run_one_of_report hr hp hready

/-- An operand's value does not depend on the phase or the ports. -/
theorem HasValue.of_accepted {s : State} {src : Source} {v : Int} (h : HasValue s src v) (p : Phase)
    (rest : List InstrTransfer) : HasValue (accepted p rest s) src v := by
  cases h with
  | reg n => exact .reg n
  | ind n hbound => exact .ind n hbound
  | imm w => exact .imm w

/-! ### The statements -/

/-- Settles O3: a step from `Execute` is `exec` of the decoded word, wherever the word comes from. -/
theorem executePhaseRunsDecodedWord : Obligations.ExecutePhaseRunsDecodedWord :=
  ⟨fun _ _ _ hr hp hd => step_of_execute hr hp hd,
    fun _ _ _ _ _ _ hr hp hd => step_of_execute hr hp (decodeWord_of_decodeBytes hd),
    fun s nbits w _ hd =>
      step_of_execute (s := s.withFetchWord nbits w) rfl rfl (decodeWord_of_decodeTableWord hd)⟩

/-- Settles O40: a step is one of its effects, each of which is a next state. -/
theorem noErrorStopsTheCore : Obligations.NoErrorStopsTheCore := fun s =>
  have ⟨t, h, _⟩ := step_effect s
  ⟨t, h⟩

/-- Settles O44: each signal is driven in one phase, with `rst` low. -/
theorem portsDrivenInTheirPhases : Obligations.PortsDrivenInTheirPhases := by
  refine fun s => ⟨fun h => h.elim drivesNothing_of_rst drivesNothing_of_idle_reset, fun hr => ⟨?_, ?_, ?_, ?_⟩⟩
  · simp [instrReady, hr]
  · cases hp : s.phase <;> simp [inReady, hr, hp]
  · cases hp : s.phase <;> simp [outValid, hr, hp]
  · cases hp : s.phase <;> simp [repValid, hr, hp, eq_comm]

/-- Settles O45: each effect of a step moves at most its own port. -/
theorem oneTransferPerStep : Obligations.OneTransferPerStep := by
  intro s t hr h
  cases stepEffect_of_step h with
  | reset hrst => simp [hr] at hrst
  | resetCycle | abandon | ended => exact .inl rfl
  | run _ _ _ _ _ _ he => exact .inl he.ports_kept
  | accept _ hp =>
    rcases acceptTransfer_cases s with ⟨_, hstay⟩ | ⟨x, rest, hin, haccept⟩
    · exact .inl (by rw [hstay])
    · refine .inr (.inl ⟨hp, ⟨x.word, ?_⟩, x, rest, hin, by rw [haccept]⟩)
      rw [haccept]
      cases x.progEnd with
      | false => exact .inl rfl
      | true => exact .inr rfl
  | input n _ hp =>
    rcases awaitInput_cases n s with ⟨_, hstay⟩ | ⟨v, rest, hin, htake⟩
    · exact .inl (by rw [hstay])
    · rw [htake]
      exact .inr (.inr (.inl ⟨⟨n, hp⟩, rfl, v, rest, hin, rfl⟩))
  | output v _ hp =>
    rcases awaitOutput_cases v s with ⟨_, hstay⟩ | ⟨hready, hsend⟩
    · exact .inl (by rw [hstay])
    · rw [hsend]
      exact .inr (.inr (.inr (.inl ⟨v, hp, rfl, hready, rfl⟩)))
  | report final _ hp =>
    rcases sendReport_cases final s with ⟨_, hstay⟩ | ⟨hready, hsend⟩
    · exact .inl (by rw [hstay])
    · rw [hsend]
      refine .inr (.inr (.inr (.inr ⟨final, hp, ?_, hready, rfl⟩)))
      cases final with
      | false => exact .inl rfl
      | true => exact .inr rfl

/-- Settles O41: the word is accepted, its instruction runs or is abandoned, and the state that it left is reported. -/
theorem instructionCycle : Obligations.InstructionCycle := by
  intro s u w rest hr hp hin hready hu hleft
  have hrun : step (accepted (.execute w) rest s) = .next u := step_accepted hr hleft
  obtain ⟨hports, hpc⟩ := ports_pc_of_step_execute (s := accepted (.execute w) rest s) hr rfl hu hrun
  have hreport := run_one_of_report (hports ▸ hr) hu (hports ▸ hready)
  refine ⟨reportOf false u, ?_, hpc, rfl, rfl, rfl, rfl, getElem_cells u.mem⟩
  rw [run_of_step 2 (step_of_idle_word hr hp hin), run_of_step 1 hrun, hreport, hports]
  rfl

/-- Settles O42: `prog_end` is accepted and the final report sent; in `Ended` a step answers the same state. -/
theorem progEndSendsFinalReport : Obligations.ProgEndSendsFinalReport := by
  refine ⟨fun s w rest hr hp hin hready => ?_, fun s hp hr => ⟨step_of_ended hr hp, by simp [instrReady, hp]⟩⟩
  refine ⟨reportOf true s, ?_, rfl, rfl, rfl, rfl, rfl, getElem_cells s.mem⟩
  rw [run_of_step 1 (step_of_idle_progEnd hr hp hin)]
  exact run_one_of_report (s := accepted (.report true) rest s) hr rfl hready

/-- Settles O51: the word is accepted, the IN or OUT enters its wait, the wait is served (O22, O24), and the report
is sent. -/
theorem portInstructionCycle : Obligations.PortInstructionCycle := by
  intro s w rest hr hp hin hready
  have haccept := step_of_idle_word hr hp hin
  refine ⟨fun n v more hd hinput => ?_, fun src v hd hv houtReady => ?_⟩
  · obtain ⟨_, _, hreg⟩ := inReadsOneValue (accepted (.execute w) rest s) (.reg n)
    obtain ⟨_, hexec, rfl, hserve⟩ := hreg n rfl
    have hwait := (step_of_execute (s := accepted (.execute w) rest s) hr rfl hd).trans hexec
    refine ⟨reportOf false (committedResult s n v.toInt), ?_, rfl, rfl, rfl, rfl, rfl, getElem_cells s.mem⟩
    rw [run_four_of_served haccept hwait (hserve v more hr hinput) hr rfl hready, hp]
    rfl
  · obtain ⟨_, hvalue, _⟩ := outSendsOneValue (accepted (.execute w) rest s) src
    obtain ⟨x, _, hx, hexec, rfl, hserve⟩ := hvalue v (hv.of_accepted _ _)
    have hwait := (step_of_execute (s := accepted (.execute w) rest s) hr rfl hd).trans hexec
    refine ⟨reportOf false (complete s), x, hx, ?_, rfl, rfl, rfl, rfl, rfl, getElem_cells s.mem⟩
    rw [run_four_of_served haccept hwait (hserve hr houtReady) hr rfl hready, hp]
    rfl

/-- Settles O52: `applyReset` leaves the quiet first cycle ahead; the step after it ends the cycle, and the next accepts. -/
theorem resetIsQuietForOneCycle : Obligations.ResetIsQuietForOneCycle := by
  intro s hr
  refine ⟨drivesNothing_of_rst hr, applyReset s, step_of_rst hr, rfl, rfl, drivesNothing_of_idle_reset rfl,
    endResetCycle (applyMove (.setRst false) (applyReset s)), step_of_idle_reset rfl rfl, rfl, rfl, fun w rest hin => ?_⟩
  exact ⟨_, step_of_idle_word rfl rfl hin, rfl, rfl⟩

end Sys2Proof.Machine
